-- ==== Sys2Proof/Word.lean ====
section
/-! DEFINITION. The words of the block: bytes, 16-bit positions, the four axes and 4-tuples over them
(00_scope.md R9 to R12). -/

namespace Sys2Proof

/-- `uint8` (R11). -/
abbrev Byte := BitVec 8

/-- `int16`: a 16-bit two's-complement value (R11); `BitVec.toInt` is the `toInt` of R11. -/
abbrev Word := BitVec 16

/-- The frame terminator (TERMINATOR of R7). -/
def terminator : Byte := 0x0D

/-- The axes in the order of R9: index 0 is X, 1 is Y, 2 is Theta, 3 is Phi. -/
inductive Axis where
  | x
  | y
  | theta
  | phi
deriving DecidableEq, Repr, Inhabited

/-- One `α` for each axis (R12). -/
structure Axes (α : Type) where
  x     : α
  y     : α
  theta : α
  phi   : α
deriving DecidableEq, Repr, Inhabited

/-- `Pos4`: a 4-tuple of positions or deltas (R12). -/
abbrev Pos4 := Axes Word

/-- `p[a]` of R12. -/
def Axes.get {α : Type} (p : Axes α) (a : Axis) : α :=
  match a with
  | .x => p.x
  | .y => p.y
  | .theta => p.theta
  | .phi => p.phi

/-- The tuple whose field for axis `a` is `f a`: an operation applied to each axis separately (R12). -/
def Axes.ofFn {α : Type} (f : Axis → α) : Axes α :=
  { x := f .x, y := f .y, theta := f .theta, phi := f .phi }

end Sys2Proof
end

