-- ==== Sys2Proof/Config.lean ====
section
/-! DEFINITION. What an implementation fixes (the parameters of 00_scope.md R7 and R8), the events that may come next
(60_exceptions.md R125, R126; 10_state.md R31), and the free value that orders them. -/

namespace Sys2Proof

/-- CODEC_ORDER of R7: which of the two masked data bytes of a codec frame is sent first (R58, D8). -/
inductive CodecOrder where
  | highFirst
  | lowFirst
deriving DecidableEq, Repr

/-- The parameters of R7 that a rule depends on. BAUD and STEP_PERIOD are timing only, and no rule depends on them
(log 11). The parameters are fixed for a run (R31). -/
structure Config where
  /-- N_RX, capacity of the RX byte FIFO in slots. -/
  nRx : Nat
  /-- N_TX, capacity of the TX byte FIFO in slots. -/
  nTx : Nat
  /-- N_MQ, capacity of the movement queue in slots. -/
  nMq : Nat
  /-- POSITION_MIN, inclusive (D4). -/
  posMin : Int
  /-- POSITION_MAX, inclusive (D4). -/
  posMax : Int
  /-- CODEC_ORDER. -/
  codecOrder : CodecOrder
  /-- PHYSICAL_AXES as a set: true for an axis that is physically pulsed (R98, D23). -/
  physical : Axes Bool
deriving DecidableEq, Repr

/-- A FIFO capacity is a power of two and at least 2 (R8). -/
abbrev Config.capacityOk (n : Nat) : Prop := 2 ≤ n ∧ n = 2 ^ Nat.log2 n

/-- The constraints of R7 and R8 on the parameters. That the bounds fit a 16-bit position is DEDUCED from R18 (log 1). -/
abbrev Config.Valid (c : Config) : Prop :=
  Config.capacityOk c.nRx ∧ 16 ≤ c.nRx ∧ Config.capacityOk c.nTx ∧ Config.capacityOk c.nMq ∧
    -32768 ≤ c.posMin ∧ c.posMin ≤ c.posMax ∧ c.posMax ≤ 32767

/-- The parameters of the spec's test vectors (95_test_vectors.md) and the defaults of R7. DESIGN CHOICE for the three
capacities, which R7 leaves OPEN (log 1). -/
def Config.standard : Config :=
  { nRx := 64, nTx := 64, nMq := 4, posMin := -128, posMax := 127, codecOrder := .highFirst
    physical := { x := true, y := true, theta := false, phi := false } }

/-- Which agent takes the next event, with the input it takes (R125, R126, R31). -/
inductive Event where
  /-- The controller is given the turn; while its transition would hold, nothing changes. -/
  | controller
  /-- The host delivers one byte. -/
  | rxByte (b : Byte)
  /-- The input `tx_ready` holds and the TX handler is given the turn. -/
  | txReady
  /-- The time of an armed step timer has come. -/
  | timerExpiry
  /-- A power cycle: the reset of R137. -/
  | powerOn
deriving DecidableEq, Repr, Inhabited

/-- FREE VALUE (log 2): the order of events is left open (R126, R127). `freeEvent k` is the `k`-th event that the
environment chooses; it has no body, so a claim proved of the model holds for every order. -/
opaque Config.freeEvent : Nat → Event

end Sys2Proof
end

