-- ==== Sys2Proof/Syntax.lean ====
section
/-! DEFINITION. The host commands, one constructor for each row of spec/opcode_table.json (30_encoding.md R61, R64). -/

namespace Sys2Proof

/-- A host command with its decoded operands. -/
inductive Instr where
  /-- MOVE_ABS, opcode 0x01: four absolute positions (R110). -/
  | moveAbs (p : Pos4)
  /-- MOVE_REL, opcode 0x02: four deltas (R111). -/
  | moveRel (d : Pos4)
  /-- GET_POS, opcode 0x03 (R112). -/
  | getPos
  /-- HOME_X, opcode 0x04 (R113). -/
  | homeX
  /-- HOME_Y, opcode 0x05 (R114). -/
  | homeY
  /-- START, opcode 0x06 (R115). -/
  | start
  /-- STOP, opcode 0x07 (R116). -/
  | stop
  /-- ABORT, opcode 0x08 (R117). -/
  | abort
  /-- GET_TARGET, opcode 0x0F (R118). -/
  | getTarget
  /-- The empty frame: the line holds only its terminator 0x0D (R64, R104). -/
  | emptyFrame
  /-- Any other opcode byte (R64, R119). -/
  | unassigned (op : Byte)
deriving DecidableEq, Repr

end Sys2Proof
end

