-- ==== Sys2Proof/WellFormed.lean ====
section
/-! DEFINITION. Which terms of Instr a frame can stand for. Every Pos4 is an operand (30_encoding.md R58: every 16-bit
value), so the one check is on the byte of an unassigned opcode (R64). -/

namespace Sys2Proof

/-- The unassigned opcode values of R64: 0x00, 0x09 to 0x0C, 0x0E, 0x10 to 0xFF. -/
def isUnassigned (op : Byte) : Bool :=
  op == 0x00 || (0x09 ≤ op && op ≤ 0x0C) || op == 0x0E || 0x10 ≤ op

/-- A well-formed command: an `unassigned` term carries a byte that R64 lists as unassigned. -/
def Instr.wf : Instr → Bool
  | .moveAbs _ => true
  | .moveRel _ => true
  | .getPos => true
  | .homeX => true
  | .homeY => true
  | .start => true
  | .stop => true
  | .abort => true
  | .getTarget => true
  | .emptyFrame => true
  | .unassigned op => isUnassigned op

end Sys2Proof
end

