-- ==== Sys2Proof/Decode.lean ====
section
/-! DEFINITION. The wire encoding: opcode and response bytes (30_encoding.md R61 to R64), the position codec (R58, R60;
41_serial.md R84 to R86), the decoder of a command from a byte stream (R56, R57, R60) and the encoder of command frames
(R56, R66). -/

namespace Sys2Proof

/-! ### The opcode map (R61). The literals are the source's and unaudited (I1, log 13). -/

def opMoveAbs : Byte := 0x01
def opMoveRel : Byte := 0x02
def opGetPos : Byte := 0x03
def opHomeX : Byte := 0x04
def opHomeY : Byte := 0x05
def opStart : Byte := 0x06
def opStop : Byte := 0x07
def opAbort : Byte := 0x08
def opGetTarget : Byte := 0x0F

/-! ### The position codec (R58, R60, R84 to R86) -/

/-- `v[15:8]` (R58). -/
def highByte (v : Word) : Byte := v.extractLsb' 8 8

/-- `v[7:0]` (R58). -/
def lowByte (v : Word) : Byte := v.extractLsb' 0 8

/-- The data byte as sent: bit 0 forced to 0 (R58, R84). -/
def maskedByte (b : Byte) : Byte := b &&& 0xFE

/-- B2: the evicted bit 0 of the high byte in bit 1 and of the low byte in bit 0; bits 7..2 are 0 (R58, R84). -/
def evictedBits (h l : Byte) : Byte := ((h &&& 0x01) <<< 1) ||| (l &&& 0x01)

/-- `encode(v)`: the codec frame of a position, three bytes in transmission order (R58, R84). -/
def encodePos (o : CodecOrder) (v : Word) : List Byte :=
  match o with
  | .highFirst =>
    [maskedByte (highByte v), maskedByte (lowByte v), evictedBits (highByte v) (lowByte v)]
  | .lowFirst =>
    [maskedByte (lowByte v), maskedByte (highByte v), evictedBits (highByte v) (lowByte v)]

/-- A data byte with its evicted bit ORed back in; bit 0 of the data byte is not checked (R60, R85). -/
def restoreHigh (b b2 : Byte) : Byte := b ||| ((b2 >>> 1) &&& 0x01)

/-- As `restoreHigh`, for the low byte: the evicted bit is bit 0 of B2 (R60, R85). -/
def restoreLow (b b2 : Byte) : Byte := b ||| (b2 &&& 0x01)

/-- `decode(B0, B1, B2)`: any three bytes decode; bits 7..2 of B2 are ignored (R60, R85). -/
def decodePos (o : CodecOrder) (b0 b1 b2 : Byte) : Word :=
  match o with
  | .highFirst => restoreHigh b0 b2 ++ restoreLow b1 b2
  | .lowFirst => restoreHigh b1 b2 ++ restoreLow b0 b2

/-- `encode4(p)`: twelve bytes, axis order of R9 (R86). -/
def encode4 (o : CodecOrder) (p : Pos4) : List Byte :=
  encodePos o p.x ++ encodePos o p.y ++ encodePos o p.theta ++ encodePos o p.phi

/-- `decode4(q[0..11])` (R86). -/
def decode4 (o : CodecOrder) (q : Vector Byte 12) : Pos4 :=
  { x := decodePos o q[0] q[1] q[2], y := decodePos o q[3] q[4] q[5]
    theta := decodePos o q[6] q[7] q[8], phi := decodePos o q[9] q[10] q[11] }

/-! ### The decoder -/

/-- Payload length, decided by the opcode byte alone: 12 for 0x01 and 0x02, else 0 (R57). -/
def payloadLength (op : Byte) : Nat :=
  if op = opMoveAbs ∨ op = opMoveRel then 12 else 0

/-- The command that opcode byte `op` and payload `pbuf` stand for (R61, R64, R106). A command without payload ignores
`pbuf`. -/
def decodeOp (o : CodecOrder) (op : Byte) (pbuf : Vector Byte 12) : Instr :=
  if op = opMoveAbs then .moveAbs (decode4 o pbuf)
  else if op = opMoveRel then .moveRel (decode4 o pbuf)
  else if op = opGetPos then .getPos
  else if op = opHomeX then .homeX
  else if op = opHomeY then .homeY
  else if op = opStart then .start
  else if op = opStop then .stop
  else if op = opAbort then .abort
  else if op = opGetTarget then .getTarget
  else if op = terminator then .emptyFrame
  else .unassigned op

/-- What the decoder makes of a byte stream: a command with the bytes behind it, or a refusal by name. -/
inductive DecodeResult where
  /-- A command, and the bytes after its opcode and payload. -/
  | command (i : Instr) (rest : List Byte)
  /-- Refused: there is no byte at all. -/
  | noOpcode
  /-- Refused: fewer than the twelve payload bytes that opcode `op` takes (the controller would hold in PAYLOAD, R105). -/
  | shortPayload (op : Byte)
deriving DecidableEq, Repr

/-- The command at the head of a byte stream, with the bytes after its opcode and payload. The payload is read blind
(R57, R105); the terminator of the frame is among the bytes left, for DISCARD to consume (R108, log 8). -/
def decode (o : CodecOrder) (bytes : List Byte) : DecodeResult :=
  match bytes with
  | [] => .noOpcode
  | op :: rest =>
    if payloadLength op = 12 then
      match rest with
      | b0 :: b1 :: b2 :: b3 :: b4 :: b5 :: b6 :: b7 :: b8 :: b9 :: b10 :: b11 :: rest' =>
        .command (decodeOp o op #v[b0, b1, b2, b3, b4, b5, b6, b7, b8, b9, b10, b11]) rest'
      | _ => .shortPayload op
    else .command (decodeOp o op (Vector.replicate 12 0)) rest

/-! ### The encoder (R56, R66) -/

/-- Format F0 (R56). -/
def frameF0 (op : Byte) : List Byte := [op, terminator]

/-- Format F12 (R56). -/
def frameF12 (o : CodecOrder) (op : Byte) (p : Pos4) : List Byte := op :: encode4 o p ++ [terminator]

/-- The bytes of a command's frame in transmission order (R56, R64, R66). -/
def encode (o : CodecOrder) : Instr → List Byte
  | .moveAbs p => frameF12 o opMoveAbs p
  | .moveRel d => frameF12 o opMoveRel d
  | .getPos => frameF0 opGetPos
  | .homeX => frameF0 opHomeX
  | .homeY => frameF0 opHomeY
  | .start => frameF0 opStart
  | .stop => frameF0 opStop
  | .abort => frameF0 opAbort
  | .getTarget => frameF0 opGetTarget
  | .emptyFrame => [terminator]
  | .unassigned op => frameF0 op

/-! ### The words of spec/opcode_table.json -/

/-- Byte `k` of an instruction word numbered as the opcode table numbers it: bit 0 is the least significant bit of the
first byte, and every bit from `nbits` up is 0. -/
def tableByte (nbits w k : Nat) : Byte := BitVec.ofNat 8 ((w % 2 ^ nbits) >>> (8 * k))

/-- The longest frame, F12 (R56), in bytes. -/
def longestFrame : Nat := 14

/-- The bytes of an instruction word in transmission order, the first byte first. -/
def tableBytes (nbits w : Nat) : List Byte := (List.range longestFrame).map (tableByte nbits w)

/-- The command that the decoder reads from an instruction word of the opcode table, with the default CODEC_ORDER. -/
def decodeTableWord (nbits w : Nat) : Option Instr :=
  match decode Config.standard.codecOrder (tableBytes nbits w) with
  | .command i _ => some i
  | .noOpcode => none
  | .shortPayload _ => none

end Sys2Proof
end

