-- ==== Sys2Proof/Machine/State.lean ====
section
/-! DEFINITION. The state of the block as plain data (10_state.md R16), the reasons a step can stop, and the state after
reset (70_reset_and_hazards.md R137). -/

namespace Sys2Proof.Machine

/-- The controller FSM states (R29). -/
inductive Ctl where
  | poll
  | readOp
  | payload
  | exec
  | respond
  | discard
  | spin
deriving DecidableEq, Repr

/-- What leaves the block (R13, R133). -/
inductive Emission where
  /-- `emit TX(b)` (R78). -/
  | tx (b : Byte)
  /-- The `emit Pulse(a, d)` of ONE tick as one unordered set: for each axis no pulse, or one with direction `d`
  (true: toward larger positions) (R98, R99, D26). -/
  | pulses (p : Axes (Option Bool))
  /-- `emit Home(a)` (R113, R114). -/
  | home (a : Axis)
deriving DecidableEq, Repr

/-- A storage space: (index, element) pairs, indices strictly rising, no element equal to what an unlisted index reads
as (`Memory.wf`, Machine/Ops.lean). For bytes this is a list of `Host.Cell`. -/
abbrev Memory (α : Type) := List (Nat × α)

/-- A circular buffer: storage, next-write index and next-read index (R67). Its capacity is in `Config`. -/
structure Fifo (α : Type) where
  mem  : Memory α
  head : Nat
  tail : Nat
deriving DecidableEq, Repr

/-- Positions and motion state (R18 to R23). -/
structure Motion where
  current    : Pos4
  target     : Pos4
  dir        : Axes Bool
  moving     : Bool
  timerArmed : Bool
deriving DecidableEq, Repr

/-- Controller state (R29, R30). -/
structure Controller where
  ctl    : Ctl
  op     : Byte
  pbuf   : Vector Byte 12
  pcount : Nat
  resp   : List Byte
  ridx   : Nat
deriving DecidableEq, Repr

/-- The state: every element of R16, and four fields of the model's own (`cfg`, `emitted`, `sched`, `turn`; logs 1, 2
and 4). -/
structure State where
  /-- The parameters of R7; no step writes them. -/
  cfg     : Config
  /-- `current`, `target`, `dir`, `moving`, `timer_armed`. -/
  motion  : Motion
  /-- `mq_mem`, `mq_head`, `mq_tail` (R24). -/
  mq      : Fifo Pos4
  /-- `rx_mem`, `rx_head`, `rx_tail` (R25). -/
  rx      : Fifo Byte
  /-- `rx_lines` (R27). -/
  rxLines : Nat
  /-- `tx_mem`, `tx_head`, `tx_tail` (R26). -/
  tx      : Fifo Byte
  /-- `txie` (R28). -/
  txie    : Bool
  /-- `ctl`, `op`, `pbuf`, `pcount`, `resp`, `ridx`. -/
  ctrl    : Controller
  /-- What has left the block, newest first. -/
  emitted : List Emission
  /-- The events the environment has already fixed, first one next. -/
  sched   : List Event
  /-- How many events have been drawn from `Config.freeEvent`. -/
  turn    : Nat
deriving DecidableEq, Repr

/-- The spec has no fault (R122). These stand for states that the spec rules out and that no run from reset reaches
(log 9); each is SAFE, since no run of the block stops by one. -/
inductive Fault where
  /-- Raised by the PAYLOAD transition when `pcount` is past 11, so that `pbuf[pcount]` names no byte (R30, R105). Safe. -/
  | payloadIndex
  /-- Raised by the RESPOND transition when `ridx` is past the end of `resp`, so that `resp[ridx]` names no byte
  (R30, R107). Safe. -/
  | responseIndex
  /-- Raised by the EXEC transition when `op` is 0x0D: "0x0D never reaches EXEC" (R106). Safe. -/
  | terminatorAtExec
deriving DecidableEq, Repr

/-- Why an instruction has no meaning. -/
inductive Refusal where
  /-- The instruction has no meaning in the model yet; no arm of `exec` answers so. Safe. -/
  | notModelled (mnemonic : String)
deriving DecidableEq, Repr

/-- An empty circular buffer: `head = tail = 0` (R137). No cell is listed: DESIGN CHOICE for the cells, which R137 leaves
unspecified (log 5). -/
def Fifo.reset {α : Type} : Fifo α := { mem := [], head := 0, tail := 0 }

/-- The motion state after reset (R137). -/
def Motion.reset : Motion :=
  { current := { x := 0, y := 0, theta := 0, phi := 0 }, target := { x := 0, y := 0, theta := 0, phi := 0 }
    dir := { x := false, y := false, theta := false, phi := false }, moving := false, timerArmed := false }

/-- The controller after reset: `ctl` is POLL (R137). DESIGN CHOICE for the operand registers, which R137 leaves
unspecified (log 6). -/
def Controller.reset : Controller :=
  { ctl := .poll, op := 0, pbuf := Vector.replicate 12 0, pcount := 0, resp := [], ridx := 0 }

/-- The block with parameters `c` right after reset (R137). -/
def State.resetWith (c : Config) : State :=
  { cfg := c, motion := Motion.reset, mq := Fifo.reset, rx := Fifo.reset, rxLines := 0, tx := Fifo.reset
    txie := false, ctrl := Controller.reset, emitted := [], sched := [], turn := 0 }

/-- The block right after reset, with the parameters of the spec's vectors (log 1). -/
def State.reset : State := State.resetWith Config.standard

end Sys2Proof.Machine
end

