-- ==== Sys2Proof/Machine/Ops.lean ====
section
/-! DEFINITION. The named operations over storage (20_memory.md R41), circular buffers (40_fifo.md R67 to R74), outputs
(00_scope.md R13), the serial transport's actions (41_serial.md R80 to R82), the end of a command (43_commands.md R106)
and the power-on reset (70_reset_and_hazards.md R137). The spec has no exception entry and no return from exception
(60_exceptions.md R122, R129), so none is defined. -/

namespace Sys2Proof.Machine

/-! ### Storage (R41) -/

/-- What an index that the storage does not list reads as: zero. DESIGN CHOICE: R137 leaves the cells unspecified, and no
rule reads a cell before it is written (R39, log 5). -/
abbrev unlisted (α : Type) [Inhabited α] : α := default

/-- Whether the entries from index `low` on are in canonical form. -/
def Memory.wfFrom {α : Type} [DecidableEq α] [Inhabited α] (low : Nat) : Memory α → Bool
  | [] => true
  | (j, w) :: rest => decide (low ≤ j) && decide (w ≠ unlisted α) && Memory.wfFrom (j + 1) rest

/-- The canonical form: indices strictly rising, no entry equal to what an unlisted index reads as. -/
def Memory.wf {α : Type} [DecidableEq α] [Inhabited α] (m : Memory α) : Bool := Memory.wfFrom 0 m

/-- `MemRead((buf, i), n)`: one whole element (R41, R42). -/
def Memory.read {α : Type} [Inhabited α] (m : Memory α) (i : Nat) : α :=
  match m with
  | [] => unlisted α
  | (j, w) :: rest => if i = j then w else Memory.read rest i

/-- `MemWrite((buf, i), n, v)`: one whole element; no other element changes (R41, R42). -/
def Memory.write {α : Type} [DecidableEq α] [Inhabited α] (m : Memory α) (i : Nat) (v : α) : Memory α :=
  match m with
  | [] => if v = unlisted α then [] else [(i, v)]
  | (j, w) :: rest =>
    if i < j then (if v = unlisted α then (j, w) :: rest else (i, v) :: (j, w) :: rest)
    else if i = j then (if v = unlisted α then rest else (i, v) :: rest)
    else (j, w) :: Memory.write rest i v

/-! ### Circular buffers of capacity `n` (R67 to R74) -/

/-- `isEmpty(B)` (R68). -/
def Fifo.isEmpty {α : Type} (f : Fifo α) : Bool := f.head == f.tail

/-- `isFull(B)` (R69). -/
def Fifo.isFull {α : Type} (n : Nat) (f : Fifo α) : Bool := (f.head + 1) % n == f.tail

/-- `count(B) = (head - tail) mod N` (R70), for `tail` in `0 .. N-1`. -/
def Fifo.count {α : Type} (n : Nat) (f : Fifo α) : Nat := (f.head + n - f.tail) % n

/-- `push(B, item)` (R71): `none` is Err(Full). -/
def Fifo.push {α : Type} [DecidableEq α] [Inhabited α] (n : Nat) (f : Fifo α) (item : α) : Option (Fifo α) :=
  if f.isFull n then none
  else some { mem := Memory.write f.mem f.head item, head := (f.head + 1) % n, tail := f.tail }

/-- `pop(B)` (R72): the oldest element and the buffer without it; `none` is Err(Empty). Storage is not cleared. -/
def Fifo.pop {α : Type} [Inhabited α] (n : Nat) (f : Fifo α) : Option (α × Fifo α) :=
  if f.isEmpty then none
  else some (Memory.read f.mem f.tail, { f with tail := (f.tail + 1) % n })

/-- `last(B)` (R73): the newest element, for a buffer that is not empty. -/
def Fifo.last {α : Type} [Inhabited α] (n : Nat) (f : Fifo α) : α := Memory.read f.mem ((f.head + n - 1) % n)

/-- `clear(B)` (R74). -/
def Fifo.clear {α : Type} (f : Fifo α) : Fifo α := { f with tail := f.head }

/-- The elements of the occupied slots `(tail + k) mod N`, oldest first (R70). -/
def Fifo.contents {α : Type} [Inhabited α] (n : Nat) (f : Fifo α) : List α :=
  (List.range (f.count n)).map fun k => Memory.read f.mem ((f.tail + k) % n)

/-! ### Outputs (R13) -/

/-- `emit e`. -/
def State.emit (s : State) (e : Emission) : State := { s with emitted := e :: s.emitted }

/-! ### The controller's next state (R13, R29) -/

/-- `goto c`. -/
def State.goto (s : State) (c : Ctl) : State := { s with ctrl := { s.ctrl with ctl := c } }

/-! ### Serial transport (R80 to R82) -/

/-- `rx_lines + 1` in a counter of ceil(log2 N_RX) bits (R27); the wrap is never reached (R37, log 7). -/
def lineCountUp (c : Config) (k : Nat) : Nat := (k + 1) % c.nRx

/-- `rx_lines - 1` in a counter of ceil(log2 N_RX) bits (R27); the wrap is never reached (R81, log 7). -/
def lineCountDown (c : Config) (k : Nat) : Nat := (k + c.nRx - 1) % c.nRx

/-- `lineAvailable()` (R82). -/
def State.lineAvailable (s : State) : Bool := s.rxLines != 0

/-- `readByte()` (R81): `none` while it holds, the RX FIFO being empty. -/
def State.readByte (s : State) : Option (Byte × State) :=
  match s.rx.pop s.cfg.nRx with
  | none => none
  | some (b, rx) =>
    some (b, { s with rx := rx, rxLines := if b = terminator then lineCountDown s.cfg s.rxLines else s.rxLines })

/-- `writeByte(b)` (R80): `none` while it holds, the TX FIFO being full. -/
def State.writeByte (s : State) (b : Byte) : Option State :=
  match s.tx.push s.cfg.nTx b with
  | none => none
  | some tx => some { s with tx := tx, txie := true }

/-! ### The end of EXEC (R106) -/

/-- `resp <- r; ridx <- 0; goto RESPOND`: how every dispatched command ends. -/
def State.answer (s : State) (r : List Byte) : State :=
  { s with ctrl := { s.ctrl with resp := r, ridx := 0, ctl := .respond } }

/-! ### Power-on reset (R137) -/

/-- A power cycle: every state element takes its reset value. What has already left the block, and the environment's
events to come, are outside the block and stay (log 12). -/
def State.powerCycle (s : State) : State :=
  { State.resetWith s.cfg with emitted := s.emitted, sched := s.sched, turn := s.turn }

end Sys2Proof.Machine
end

