-- ==== Sys2Proof/Machine/Flags.lean ====
section
/-! DEFINITION. The one-bit results the spec computes. The block has no flags register (10_state.md R32): its computed bits
are the direction of each axis (42_motion.md R97), whether an axis still differs from its target (R99), and the status
byte of a move response (30_encoding.md R63). -/

namespace Sys2Proof.Machine

/-- `dir[a] <- (target[a] > current[a])`, a signed comparison, for every axis (R97). -/
def directions (current target : Pos4) : Axes Bool :=
  Axes.ofFn fun a => BitVec.slt (current.get a) (target.get a)

/-- `current[a] != target[a]` (R99). -/
def Motion.differs (m : Motion) (a : Axis) : Bool := m.current.get a != m.target.get a

/-- The status byte: 0x0B for success, 0x0C for failure (R63). -/
def statusByte (ok : Bool) : Byte := if ok then 0x0B else 0x0C

end Sys2Proof.Machine
end

