-- ==== Sys2Proof/Machine/Operands.lean ====
section
/-! DEFINITION. The operands and results of commands: position arithmetic (42_motion.md R88, R89), the endgoal (R90), the
two position snapshots (R94, R95) and the response frames (30_encoding.md R62). -/

namespace Sys2Proof.Machine

/-- `satAdd(a, b)`: the exact sum if it lies in `[POSITION_MIN, POSITION_MAX]`, else the first operand (R88). -/
def satAdd (c : Config) (a b : Word) : Word :=
  let sum : Int := a.toInt + b.toInt
  if c.posMin ≤ sum ∧ sum ≤ c.posMax then BitVec.ofInt 16 sum else a

/-- `satAdd4(p, d)`: `satAdd` on each axis (R89). -/
def satAdd4 (c : Config) (p d : Pos4) : Pos4 := Axes.ofFn fun a => satAdd c (p.get a) (d.get a)

/-- `endgoal()`: the last queued waypoint, or `target` when none is queued (R90). -/
def State.endgoal (s : State) : Pos4 :=
  if s.mq.isEmpty then s.motion.target else s.mq.last s.cfg.nMq

/-- `currentPosition()` (R94). -/
def State.currentPosition (s : State) : Pos4 := s.motion.current

/-- `targetPosition()` is the endgoal (R95). -/
def State.targetPosition (s : State) : Pos4 := s.endgoal

/-- The response opcodes (R62). The literals are the source's and unaudited (I1, log 13). -/
def respMoveAbs : Byte := 0x0E
def respMoveRel : Byte := 0x10
def respPosition : Byte := 0x0A

/-- The response of a move: opcode, status, terminator (R62, R63). -/
def moveResponse (opcode : Byte) (ok : Bool) : List Byte := [opcode, statusByte ok, terminator]

/-- The response of a position query: 0x0A, four codec positions, terminator (R62). -/
def positionResponse (c : Config) (p : Pos4) : List Byte :=
  respPosition :: encode4 c.codecOrder p ++ [terminator]

end Sys2Proof.Machine
end

