-- ==== Sys2Proof/Machine/Motion.lean ====
section
/-! DEFINITION. The movement queue (42_motion.md R91 to R93) and the stepping FSM (R97 to R101). -/

namespace Sys2Proof.Machine

/-! ### Movement queue -/

/-- `enqueueAbsolute(p)`: the waypoint is queued verbatim; `false` is Err(Full), with no side effect (R91). -/
def enqueueAbsolute (s : State) (p : Pos4) : Bool × State :=
  match s.mq.push s.cfg.nMq p with
  | some mq => (true, { s with mq := mq })
  | none => (false, s)

/-- `enqueueRelative(d)`: the endgoal plus the deltas, saturating to no-op on each axis, is queued (R92). -/
def enqueueRelative (s : State) (d : Pos4) : Bool × State :=
  enqueueAbsolute s (satAdd4 s.cfg s.endgoal d)

/-- `abort()`: clears the queue; the move in flight is not affected (R93). -/
def abortQueue (s : State) : State := { s with mq := s.mq.clear }

/-! ### Stepping -/

/-- One axis of StepTick: one unit toward the target in the move's direction, nothing when it is there (R99). -/
def stepAxis (m : Motion) (a : Axis) : Word :=
  if m.differs a then
    (if m.dir.get a then m.current.get a + 1 else m.current.get a - 1)
  else m.current.get a

/-- The step requests of one tick: one with direction `dir[a]` for each physical axis not at its target (R98, R99). -/
def tickPulses (physical : Axes Bool) (m : Motion) : Axes (Option Bool) :=
  Axes.ofFn fun a => if m.differs a && physical.get a then some (m.dir.get a) else none

/-- `current` after one tick (R99). -/
def Motion.stepped (m : Motion) : Motion := { m with current := Axes.ofFn (stepAxis m) }

/-- The end of a tick: the timer is armed while some axis still differs, else the move is over (R99). -/
def Motion.settle (m : Motion) : Motion :=
  if m.current = m.target then { m with moving := false } else { m with timerArmed := true }

/-- What the tick emits: its set of step requests, and nothing when the set is empty (R99, D26). -/
def emitPulses (p : Axes (Option Bool)) (out : List Emission) : List Emission :=
  if p = { x := none, y := none, theta := none, phi := none } then out else .pulses p :: out

/-- `StepTick()` (R99). -/
def stepTick (s : State) : State :=
  { s with
    motion := s.motion.stepped.settle
    emitted := emitPulses (tickPulses s.cfg.physical s.motion) s.emitted }

/-- A move's start: `target <- w`, the directions, `moving <- 1` (R97, R100). -/
def Motion.begin (m : Motion) (w : Pos4) : Motion :=
  { m with target := w, dir := directions m.current w, moving := true }

/-- `IdleCheck()`: when no move is in flight and a waypoint is queued, the move starts and takes its first step, all in
this event; else nothing changes (R100). -/
def idleCheck (s : State) : State :=
  if s.motion.moving then s
  else
    match s.mq.pop s.cfg.nMq with
    | none => s
    | some (w, mq) => stepTick { s with mq := mq, motion := s.motion.begin w }

/-- The step-timer handler: the expiry is consumed and, while a move is in flight, one tick runs. It is enabled while
`timer_armed` is 1; else nothing changes (R101, R126). -/
def timerHandler (s : State) : State :=
  if s.motion.timerArmed then
    let consumed : State := { s with motion := { s.motion with timerArmed := false } }
    if consumed.motion.moving then stepTick consumed else consumed
  else s

end Sys2Proof.Machine
end

