-- ==== Sys2Proof/Machine/Control.lean ====
section
/-! DEFINITION. The commands START, STOP and ABORT (43_commands.md R115 to R117). -/

namespace Sys2Proof.Machine

/-- START: no effect, no response (R115). -/
def execStart (s : State) : Host.Outcome State Fault Refusal := .next (s.answer [])

/-- STOP: no effect, no response; a move in flight goes on and the queue stays (R116). -/
def execStop (s : State) : Host.Outcome State Fault Refusal := .next (s.answer [])

/-- ABORT: every queued waypoint is discarded; the move in flight goes on; no response (R117). -/
def execAbort (s : State) : Host.Outcome State Fault Refusal := .next ((abortQueue s).answer [])

end Sys2Proof.Machine
end

