-- ==== Sys2Proof/Machine/Home.lean ====
section
/-! DEFINITION. The homing commands HOME_X and HOME_Y (43_commands.md R113, R114): a request to the homing collaborator,
no change of position, no response. -/

namespace Sys2Proof.Machine

/-- HOME_X: `emit Home(X)` (R113). -/
def execHomeX (s : State) : Host.Outcome State Fault Refusal := .next ((s.emit (.home .x)).answer [])

/-- HOME_Y: `emit Home(Y)`, its own declared axis (R114, C10). -/
def execHomeY (s : State) : Host.Outcome State Fault Refusal := .next ((s.emit (.home .y)).answer [])

end Sys2Proof.Machine
end

