-- ==== Sys2Proof/Machine/Line.lean ====
section
/-! DEFINITION. Lines that hold no command of the opcode map: the empty frame (43_commands.md R104) and a frame with an
unassigned opcode (R119). -/

namespace Sys2Proof.Machine

/-- The empty frame, once READ_OP has read its 0x0D: nothing is dispatched, discarded or sent (R64, R104). -/
def execEmptyFrame (s : State) : Host.Outcome State Fault Refusal := .next (s.goto .spin)

/-- An unassigned opcode: no effect, no response; the rest of the line is discarded afterwards, whatever the opcode byte
(R119). -/
def execUnassigned (_op : Byte) (s : State) : Host.Outcome State Fault Refusal := .next (s.answer [])

end Sys2Proof.Machine
end

