-- ==== Sys2Proof/Machine/Move.lean ====
section
/-! DEFINITION. The move commands MOVE_ABS and MOVE_REL (43_commands.md R110, R111). -/

namespace Sys2Proof.Machine

/-- MOVE_ABS: the waypoint is queued verbatim; the response carries the status (R110). -/
def execMoveAbs (p : Pos4) (s : State) : Host.Outcome State Fault Refusal :=
  let r := enqueueAbsolute s p
  .next (r.2.answer (moveResponse respMoveAbs r.1))

/-- MOVE_REL: the endgoal plus the deltas is queued; the response carries the status (R111). -/
def execMoveRel (d : Pos4) (s : State) : Host.Outcome State Fault Refusal :=
  let r := enqueueRelative s d
  .next (r.2.answer (moveResponse respMoveRel r.1))

end Sys2Proof.Machine
end

