-- ==== Sys2Proof/Machine/Query.lean ====
section
/-! DEFINITION. The position queries GET_POS and GET_TARGET (43_commands.md R112, R118). -/

namespace Sys2Proof.Machine

/-- GET_POS: the response carries `current` as it is in this event (R112). -/
def execGetPos (s : State) : Host.Outcome State Fault Refusal :=
  .next (s.answer (positionResponse s.cfg s.currentPosition))

/-- GET_TARGET: the response carries the endgoal as it is in this event (R118). -/
def execGetTarget (s : State) : Host.Outcome State Fault Refusal :=
  .next (s.answer (positionResponse s.cfg s.targetPosition))

end Sys2Proof.Machine
end

