-- ==== Sys2Proof/Machine/Dispatch.lean ====
section
/-! DEFINITION. The meaning of each command: `Effect(op, pbuf)` with the end of EXEC (43_commands.md R106, R110 to R119),
and the empty frame's end of READ_OP (R104). -/

namespace Sys2Proof.Machine

def exec (i : Instr) (s : State) : Host.Outcome State Fault Refusal :=
  match i with
  | .moveAbs p => Sys2Proof.Machine.execMoveAbs p s
  | .moveRel d => Sys2Proof.Machine.execMoveRel d s
  | .getPos => Sys2Proof.Machine.execGetPos s
  | .homeX => Sys2Proof.Machine.execHomeX s
  | .homeY => Sys2Proof.Machine.execHomeY s
  | .start => Sys2Proof.Machine.execStart s
  | .stop => Sys2Proof.Machine.execStop s
  | .abort => Sys2Proof.Machine.execAbort s
  | .getTarget => Sys2Proof.Machine.execGetTarget s
  | .emptyFrame => Sys2Proof.Machine.execEmptyFrame s
  | .unassigned op => Sys2Proof.Machine.execUnassigned op s

end Sys2Proof.Machine
end

