-- ==== Sys2Proof/Machine/Serial.lean ====
section
/-! DEFINITION. The two event handlers of the serial transport (41_serial.md R77, R78). -/

namespace Sys2Proof.Machine

/-- The RX handler: the byte is pushed and a pushed terminator is counted; a byte that meets a full FIFO is dropped, with
nothing else changed (R77). -/
def rxHandler (b : Byte) (s : State) : State :=
  match s.rx.push s.cfg.nRx b with
  | none => s
  | some rx => { s with rx := rx, rxLines := if b = terminator then lineCountUp s.cfg s.rxLines else s.rxLines }

/-- The TX handler: the next byte is sent, or the enable is cleared when there is none. It is enabled while `txie` is 1
(and `tx_ready` holds, which the event stands for); else nothing changes (R78, R126). -/
def txHandler (s : State) : State :=
  if s.txie then
    match s.tx.pop s.cfg.nTx with
    | some (b, tx) => { s with tx := tx }.emit (.tx b)
    | none => { s with txie := false }
  else s

end Sys2Proof.Machine
end

