-- ==== Sys2Proof/Machine/Transitions.lean ====
section
/-! DEFINITION. The controller's transitions (43_commands.md R103 to R109) and the event that a step takes
(60_exceptions.md R125, R126). While a transition would hold, the event changes nothing (00_scope.md R13; log 3). -/

namespace Sys2Proof.Machine

/-- POLL (R103). -/
def pollTransition (s : State) : State := if s.lineAvailable then s.goto .readOp else s.goto .spin

/-- Where READ_OP goes for an opcode byte that is not the terminator (R104). -/
def afterOpcode (b : Byte) : Ctl := if payloadLength b = 12 then .payload else .exec

/-- READ_OP: the opcode byte is read; 0x0D is the empty frame (R104). -/
def readOpTransition (s : State) : Host.Outcome State Fault Refusal :=
  match s.readByte with
  | none => .next s
  | some (b, s) =>
    let s : State := { s with ctrl := { s.ctrl with op := b, pcount := 0 } }
    if b = terminator then exec (decodeOp s.cfg.codecOrder b s.ctrl.pbuf) s
    else .next (s.goto (afterOpcode b))

/-- PAYLOAD: one payload byte is read blind; after the twelfth the command is performed (R105). -/
def payloadTransition (s : State) : Host.Outcome State Fault Refusal :=
  if s.ctrl.pcount < 12 then
    match s.readByte with
    | none => .next s
    | some (b, s) =>
      let s : State :=
        { s with ctrl := { s.ctrl with
            pbuf := s.ctrl.pbuf.setIfInBounds s.ctrl.pcount b, pcount := s.ctrl.pcount + 1 } }
      .next (if s.ctrl.pcount = 12 then s.goto .exec else s)
  else .fault .payloadIndex

/-- EXEC: the command that `op` and `pbuf` stand for is performed, in one event (R106). -/
def execTransition (s : State) : Host.Outcome State Fault Refusal :=
  if s.ctrl.op = terminator then .fault .terminatorAtExec
  else exec (decodeOp s.cfg.codecOrder s.ctrl.op s.ctrl.pbuf) s

/-- RESPOND: one response byte is written, or the response is over (R107). -/
def respondTransition (s : State) : Host.Outcome State Fault Refusal :=
  if s.ctrl.ridx = s.ctrl.resp.length then .next (s.goto .discard)
  else
    match s.ctrl.resp[s.ctrl.ridx]? with
    | none => .fault .responseIndex
    | some b =>
      match s.writeByte b with
      | none => .next s
      | some s => .next { s with ctrl := { s.ctrl with ridx := s.ctrl.ridx + 1 } }

/-- DISCARD: bytes are read up to and including the next terminator (R108). -/
def discardTransition (s : State) : State :=
  match s.readByte with
  | none => s
  | some (b, s) => if b = terminator then s.goto .spin else s

/-- SPIN: the movement queue is polled (R109). -/
def spinTransition (s : State) : State := (idleCheck s).goto .poll

/-- The controller's turn: its current transition (R29). -/
def controllerTurn (s : State) : Host.Outcome State Fault Refusal :=
  match s.ctrl.ctl with
  | .poll => .next (pollTransition s)
  | .readOp => readOpTransition s
  | .payload => payloadTransition s
  | .exec => execTransition s
  | .respond => respondTransition s
  | .discard => .next (discardTransition s)
  | .spin => .next (spinTransition s)

/-- One atomic event (R5, R126). -/
def runEvent (e : Event) (s : State) : Host.Outcome State Fault Refusal :=
  match e with
  | .controller => controllerTurn s
  | .rxByte b => .next (rxHandler b s)
  | .txReady => .next (txHandler s)
  | .timerExpiry => .next (timerHandler s)
  | .powerOn => .next s.powerCycle

/-- The event that comes next: the first one the environment has fixed, else the free value's (log 2). -/
def State.nextEvent (s : State) : Event :=
  match s.sched with
  | e :: _ => e
  | [] => Config.freeEvent s.turn

/-- The state with that event taken off. -/
def State.advance (s : State) : State :=
  match s.sched with
  | _ :: rest => { s with sched := rest }
  | [] => { s with turn := s.turn + 1 }

/-- The state in which the command with opcode byte `op` and payload `pbuf` has just been received whole, and the
controller has the next turn and performs it. For 0x0D that is READ_OP with this byte alone in the RX FIFO (R104), for
every other byte EXEC (R106) (log 10). -/
def State.received (s : State) (op : Byte) (pbuf : Vector Byte 12) : State :=
  if op = terminator then
    { s with
      rx := { mem := Memory.write s.rx.mem s.rx.tail op, head := (s.rx.tail + 1) % s.cfg.nRx, tail := s.rx.tail }
      rxLines := 1
      ctrl := { s.ctrl with ctl := .readOp }
      sched := .controller :: s.sched }
  else
    { s with
      ctrl := { s.ctrl with ctl := .exec, op := op, pbuf := pbuf, pcount := payloadLength op }
      sched := .controller :: s.sched }

end Sys2Proof.Machine
end

