-- ==== Sys2Proof/Machine/Step.lean ====
section
/-! DEFINITION. One step of the machine: one atomic event of one agent (00_scope.md R5, 60_exceptions.md R126). -/

namespace Sys2Proof.Machine

/-- One step: the next event is taken off and run. -/
def step (s : State) : Host.Outcome State Fault Refusal := runEvent s.nextEvent s.advance

/-- The state in which the command whose opcode-table word is `w` (of `nbits` bits, the bits above them zero) is the one
that the next step performs (log 10). -/
def State.withFetchWord (s : State) (nbits w : Nat) : State :=
  s.received (tableByte nbits w 0) (Vector.ofFn fun k => tableByte nbits w (k.val + 1))

end Sys2Proof.Machine
end

