-- ==== Sys2Proof/Safety.lean ====
section
/-! DEFINITION. What counts as a sound state and a safe run: the spec's invariants (10_state.md R34 to R38, 20_memory.md
R41), the shape of each state element (R16), reachable states, quiescence (70_reset_and_hazards.md R152), and the bounded
queue that a circular buffer stands for (40_fifo.md R75, R76). -/

namespace Sys2Proof.Machine

/-! ### Shape of the state elements (R16) -/

/-- Every listed index lies in `0 .. n-1` (R41). -/
def Memory.below {α : Type} (n : Nat) (m : Memory α) : Bool := m.all fun e => decide (e.1 < n)

/-- A circular buffer of capacity `n`: both indices in `0 .. n-1`, storage canonical and within the capacity (R41, R67). -/
abbrev Fifo.Ok {α : Type} [DecidableEq α] [Inhabited α] (n : Nat) (f : Fifo α) : Prop :=
  f.head < n ∧ f.tail < n ∧ f.mem.wf = true ∧ f.mem.below n = true

/-- Capacities and bounds as R7 and R8 say, and the three buffers in shape. -/
abbrev State.Shaped (s : State) : Prop :=
  s.cfg.Valid ∧ s.rx.Ok s.cfg.nRx ∧ s.tx.Ok s.cfg.nTx ∧ s.mq.Ok s.cfg.nMq

/-! ### The spec's invariants -/

/-- `timer_armed = 1` implies `moving = 1` (R34). -/
abbrev Motion.TimerOnlyInMove (m : Motion) : Prop := m.timerArmed = true → m.moving = true

/-- `moving = 0` implies `current == target` (R35). -/
abbrev Motion.IdleAtTarget (m : Motion) : Prop := m.moving = false → m.current = m.target

/-- In a move, the direction of every axis not at its target is the way to it (R36). -/
abbrev Motion.DirAgrees (m : Motion) : Prop :=
  m.moving = true → ∀ a : Axis, m.current.get a ≠ m.target.get a →
    (m.dir.get a = true ↔ (m.current.get a).toInt < (m.target.get a).toInt)

/-- Between events a move in flight has a pending expiry and some axis short of its target (R96, R99; derived). -/
abbrev Motion.MoveGoesOn (m : Motion) : Prop :=
  m.moving = true → m.timerArmed = true ∧ m.current ≠ m.target

/-- `rx_lines` is the number of 0x0D bytes in the occupied slots of the RX FIFO (R37). -/
abbrev State.LinesCounted (s : State) : Prop := s.rxLines = (s.rx.contents s.cfg.nRx).count terminator

/-- If the TX FIFO is not empty then `txie = 1` (R38). -/
abbrev State.TxArmed (s : State) : Prop := s.tx.isEmpty = false → s.txie = true

/-- The controller's operand registers as its transitions leave them (R16, R30, R104 to R107). -/
structure Controller.Ok (k : Controller) : Prop where
  /-- PAYLOAD reads the payload of a command that has one, and has not read all of it. -/
  payload : k.ctl = .payload → k.pcount < 12 ∧ payloadLength k.op = 12
  /-- EXEC performs a command whose payload is complete; 0x0D never reaches it. -/
  exec    : k.ctl = .exec → k.op ≠ terminator ∧ k.pcount = payloadLength k.op
  /-- RESPOND has written no more than there is. -/
  respond : k.ctl = .respond → k.ridx ≤ k.resp.length
  /-- `pcount` is in 0..12, `resp` has at most 14 bytes, `ridx` is in 0..14. -/
  ranges  : k.pcount ≤ 12 ∧ k.resp.length ≤ 14 ∧ k.ridx ≤ 14

/-- The invariant of the block: it holds at reset and every step keeps it. -/
structure State.Inv (s : State) : Prop where
  shaped     : s.Shaped
  timer      : s.motion.TimerOnlyInMove
  idle       : s.motion.IdleAtTarget
  direction  : s.motion.DirAgrees
  goesOn     : s.motion.MoveGoesOn
  lines      : s.LinesCounted
  txArmed    : s.TxArmed
  controller : s.ctrl.Ok
  /-- READ_OP is entered only with a counted line (R103, R104). -/
  lineToRead : s.ctrl.ctl = .readOp → s.rxLines ≠ 0

/-! ### Runs -/

/-- `k` steps. -/
def runSteps (k : Nat) (s : State) : Host.Outcome State Fault Refusal := Sys2Proof.core.run k s

/-- `k` readByte calls in a row (R81, R83); `none` when one of them would hold. -/
def readBytes : Nat → State → Option (List Byte × State)
  | 0, s => some ([], s)
  | k + 1, s =>
    match s.readByte with
    | none => none
    | some (b, u) =>
      match readBytes k u with
      | none => none
      | some (bs, t) => some (b :: bs, t)

/-- `t` is reached from `s` by some number of steps. -/
inductive Reaches : State → State → Prop where
  | refl (s : State) : Reaches s s
  | tail {s t u : State} : Reaches s t → step t = .next u → Reaches s u

/-- A state of some run from reset, with any valid parameters and any events fixed by the environment. -/
def Reachable (t : State) : Prop :=
  ∃ (c : Config) (es : List Event) (k : Nat),
    c.Valid ∧ Reaches { State.resetWith c with sched := es, turn := k } t

/-- Quiescence (R152). -/
abbrev State.Quiescent (s : State) : Prop :=
  s.rx.isEmpty = true ∧ s.rxLines = 0 ∧ (s.ctrl.ctl = .poll ∨ s.ctrl.ctl = .spin) ∧
    s.motion.moving = false ∧ s.motion.timerArmed = false ∧ s.mq.isEmpty = true ∧ s.tx.isEmpty = true

/-- The dead end of R146: the RX FIFO is full of bytes with no counted terminator while the controller polls. -/
abbrev State.RxDeadEnd (s : State) : Prop :=
  s.rx.isFull s.cfg.nRx = true ∧ s.rxLines = 0 ∧ (s.ctrl.ctl = .poll ∨ s.ctrl.ctl = .spin)

/-! ### Distances and pulses (R102) -/

/-- `|t[a] - c[a]|` for one axis. -/
def axisDistance (c t : Pos4) (a : Axis) : Nat := ((t.get a).toInt - (c.get a).toInt).natAbs

/-- `M = max over a of |t[a] - c[a]|` (R102). -/
def moveLength (c t : Pos4) : Nat :=
  max (max (axisDistance c t .x) (axisDistance c t .y)) (max (axisDistance c t .theta) (axisDistance c t .phi))

/-- How many step requests of axis `a` in direction `d` a list of emissions holds. -/
def pulseCount (a : Axis) (d : Bool) (out : List Emission) : Nat :=
  out.countP fun e =>
    match e with
    | .pulses p => p.get a == some d
    | .tx _ => false
    | .home _ => false

/-- The bytes sent to the host, oldest first (`emitted` is newest first). -/
def sentBytes (out : List Emission) : List Byte :=
  out.reverse.filterMap fun e =>
    match e with
    | .tx b => some b
    | .pulses _ => none
    | .home _ => none

/-! ### The bounded queue that a circular buffer stands for (R75, R76) -/

/-- A use of a circular buffer. -/
inductive FifoOp (α : Type) where
  | push (x : α)
  | pop
  | clear
deriving DecidableEq, Repr

/-- What a use of a circular buffer reports: whether a push was accepted, what a pop gave. -/
inductive FifoResult (α : Type) where
  | pushed (ok : Bool)
  | popped (x : Option α)
  | cleared
deriving DecidableEq, Repr

/-- One use of a circular buffer of capacity `n`. -/
def Fifo.use {α : Type} [DecidableEq α] [Inhabited α] (n : Nat) (f : Fifo α) : FifoOp α → FifoResult α × Fifo α
  | .push x =>
    match f.push n x with
    | some g => (.pushed true, g)
    | none => (.pushed false, f)
  | .pop =>
    match f.pop n with
    | some (x, g) => (.popped (some x), g)
    | none => (.popped none, f)
  | .clear => (.cleared, f.clear)

/-- One use of a queue that holds at most `n - 1` elements, oldest first. -/
def queueUse {α : Type} (n : Nat) (q : List α) : FifoOp α → FifoResult α × List α
  | .push x => if q.length < n - 1 then (.pushed true, q ++ [x]) else (.pushed false, q)
  | .pop =>
    match q with
    | [] => (.popped none, [])
    | x :: rest => (.popped (some x), rest)
  | .clear => (.cleared, [])

/-- The results of a sequence of uses of a circular buffer, in order. -/
def Fifo.results {α : Type} [DecidableEq α] [Inhabited α] (n : Nat) (f : Fifo α) : List (FifoOp α) → List (FifoResult α)
  | [] => []
  | o :: os => (f.use n o).1 :: Fifo.results n (f.use n o).2 os

/-- The circular buffer after a sequence of uses. -/
def Fifo.after {α : Type} [DecidableEq α] [Inhabited α] (n : Nat) (f : Fifo α) : List (FifoOp α) → Fifo α
  | [] => f
  | o :: os => Fifo.after n (f.use n o).2 os

/-- How many pushes were accepted. -/
def acceptedCount {α : Type} (rs : List (FifoResult α)) : Nat :=
  rs.countP fun r =>
    match r with
    | .pushed ok => ok
    | .popped _ => false
    | .cleared => false

/-- How many pops gave an element. -/
def poppedCount {α : Type} (rs : List (FifoResult α)) : Nat :=
  rs.countP fun r =>
    match r with
    | .popped x => x.isSome
    | .pushed _ => false
    | .cleared => false

/-- The results of a sequence of uses of the queue, in order. -/
def queueResults {α : Type} (n : Nat) (q : List α) : List (FifoOp α) → List (FifoResult α)
  | [] => []
  | o :: os => (queueUse n q o).1 :: queueResults n (queueUse n q o).2 os

end Sys2Proof.Machine
end

