-- ==== Sys2Proof/Certificates/Slice0/Obligations.lean ====
section
/-! DEFINITION. What is claimed of the block, one proposition for each obligation of OBLIGATIONS.json. Throughout, "the event
taken off" is `State.advance`, the model's own bookkeeping of the schedule (log 2), and nothing of the block. -/

open Sys2Proof Sys2Proof.Machine

/-! ### Encoding -/

/-- Frames written out byte by byte from R56, R61, R64 and R66 (and R58's LowFirst) decode to the commands they stand for. -/
def Obligations.SpecFramesDecode : Prop :=
  decode .highFirst [0x01, 0x00, 0x04, 0x01, 0xFE, 0xFC, 0x03, 0x0C, 0x0C, 0x03, 0x80, 0x00, 0x00, 0x0D] =
      .command (.moveAbs { x := 5, y := -3, theta := 0x0D0D, phi := -32768 }) [0x0D] ∧
    decode .highFirst [0x02, 0x00, 0x0A, 0x00, 0xFE, 0xFE, 0x02, 0x00, 0x06, 0x01, 0x00, 0x00, 0x00, 0x0D] =
      .command (.moveRel { x := 10, y := -2, theta := 7, phi := 0 }) [0x0D] ∧
    decode .lowFirst [0x01, 0x04, 0x00, 0x01, 0x80, 0xFE, 0x02, 0x00, 0x00, 0x02, 0x00, 0x00, 0x00, 0x0D] =
      .command (.moveAbs { x := 5, y := -128, theta := 256, phi := 0 }) [0x0D] ∧
    decode .highFirst [0x03, 0x0D] = .command .getPos [0x0D] ∧
    decode .highFirst [0x04, 0x0D] = .command .homeX [0x0D] ∧
    decode .highFirst [0x05, 0x0D] = .command .homeY [0x0D] ∧
    decode .highFirst [0x06, 0x41, 0x42, 0x0D] = .command .start [0x41, 0x42, 0x0D] ∧
    decode .highFirst [0x07, 0x0D] = .command .stop [0x0D] ∧
    decode .highFirst [0x08, 0x0D] = .command .abort [0x0D] ∧
    decode .highFirst [0x0F, 0x0D] = .command .getTarget [0x0D] ∧
    decode .highFirst [0x0D, 0x03, 0x0D] = .command .emptyFrame [0x03, 0x0D] ∧
    decode .highFirst [0x55, 0x11, 0x0D] = .command (.unassigned 0x55) [0x11, 0x0D]

/-- Decoding the frame of a well-formed command gives it back, with every operand at every value and in either CODEC_ORDER;
what is left is the frame's terminator, for DISCARD, and the bytes behind it (nothing of the empty frame is left). -/
def Obligations.DecodeOfEncode : Prop :=
  ∀ (o : CodecOrder) (i : Instr) (rest : List Byte), i.wf = true →
    decode o (encode o i ++ rest) = .command i (if i = .emptyFrame then rest else terminator :: rest)

/-- R58: the codec frame of a position, field by field, for both orders: `H[7:1]` and `L[7:1]` in bits 7..1 of the two data
bytes with bit 0 zero, and the evicted `H[0]` and `L[0]` in bits 1 and 0 of B2 under six zeros. -/
def Obligations.CodecFrameLayout : Prop :=
  ∀ v : Word, ∃ b0 b1 b2 : Byte,
    encodePos .highFirst v = [b0, b1, b2] ∧ encodePos .lowFirst v = [b1, b0, b2] ∧
      b0.extractLsb' 1 7 = v.extractLsb' 9 7 ∧ b0.getLsbD 0 = false ∧
      b1.extractLsb' 1 7 = v.extractLsb' 1 7 ∧ b1.getLsbD 0 = false ∧
      b2.extractLsb' 2 6 = 0#6 ∧ b2.getLsbD 1 = v.getLsbD 8 ∧ b2.getLsbD 0 = v.getLsbD 0

/-- R59: the two data bytes are even and B2 is at most 0x03, for every 16-bit value, so that no byte is 0x0D; hence the only
0x0D of a well-formed frame is its last byte. -/
def Obligations.FramesNeverHoldTerminatorAsData : Prop :=
  (∀ (o : CodecOrder) (v : Word), ∃ b0 b1 b2 : Byte,
    encodePos o v = [b0, b1, b2] ∧ b0.getLsbD 0 = false ∧ b1.getLsbD 0 = false ∧ b2 ≤ 0x03 ∧
      b0 ≠ 0x0D ∧ b1 ≠ 0x0D ∧ b2 ≠ 0x0D) ∧
  (∀ (o : CodecOrder) (i : Instr), i.wf = true → (0x0D : Byte) ∉ (encode o i).dropLast)

/-- R60: decoding ORs the evicted bits back in; bits 7..2 of B2 are ignored; bit 0 of the data bytes is kept, not
checked. -/
def Obligations.CodecDecodeOrsEvictedBits : Prop :=
  ∀ b0 b1 b2 : Byte,
    decodePos .highFirst b0 b1 b2 =
        (b0 ||| (b2.extractLsb' 1 1).setWidth 8) ++ (b1 ||| (b2.extractLsb' 0 1).setWidth 8) ∧
      decodePos .lowFirst b0 b1 b2 =
        (b1 ||| (b2.extractLsb' 1 1).setWidth 8) ++ (b0 ||| (b2.extractLsb' 0 1).setWidth 8) ∧
      (∀ (o : CodecOrder) (c2 : Byte), b2.extractLsb' 0 2 = c2.extractLsb' 0 2 →
        decodePos o b0 b1 b2 = decodePos o b0 b1 c2) ∧
      (b0.getLsbD 0 = true → (decodePos .highFirst b0 b1 b2).getLsbD 8 = true) ∧
      (b1.getLsbD 0 = true → (decodePos .highFirst b0 b1 b2).getLsbD 0 = true)

/-- R87: the round trip for every position in either order, and exactly when it holds the other way round. -/
def Obligations.CodecRoundTrip : Prop :=
  (∀ (o : CodecOrder) (v : Word) (b0 b1 b2 : Byte), encodePos o v = [b0, b1, b2] → decodePos o b0 b1 b2 = v) ∧
  (∀ (o : CodecOrder) (b0 b1 b2 : Byte),
    encodePos o (decodePos o b0 b1 b2) = [b0, b1, b2] ↔
      b0.getLsbD 0 = false ∧ b1.getLsbD 0 = false ∧ b2.extractLsb' 2 6 = 0#6)

/-- R57: the number of payload bytes is decided by the opcode byte alone; the decoder takes exactly the opcode and the
payload, whatever they are, and gives a well-formed command. The last clause is the model's own choice (log 8), no rule of
the spec: the decoder refuses by name a payload that is too short, where the block holds in PAYLOAD (R105, R147). -/
def Obligations.DecodeTakesOpcodeAndPayload : Prop :=
  ∀ (o : CodecOrder) (op : Byte) (bytes : List Byte),
    payloadLength op = (if op = 0x01 ∨ op = 0x02 then 12 else 0) ∧
      (payloadLength op ≤ bytes.length →
        ∃ i, decode o (op :: bytes) = .command i (bytes.drop (payloadLength op)) ∧ i.wf = true) ∧
      (bytes.length < payloadLength op → decode o (op :: bytes) = .shortPayload op)

/-- R61, R64: which opcode byte selects which command, for all 256 values; 0x01 and 0x02 take their operands from the
payload. -/
def Obligations.OpcodeMapIsTotal : Prop :=
  ∀ (o : CodecOrder) (op : Byte) (q : Vector Byte 12),
    (decodeOp o op q = .moveAbs (decode4 o q) ↔ op = 0x01) ∧ (decodeOp o op q = .moveRel (decode4 o q) ↔ op = 0x02) ∧
      (decodeOp o op q = .getPos ↔ op = 0x03) ∧ (decodeOp o op q = .homeX ↔ op = 0x04) ∧
      (decodeOp o op q = .homeY ↔ op = 0x05) ∧ (decodeOp o op q = .start ↔ op = 0x06) ∧
      (decodeOp o op q = .stop ↔ op = 0x07) ∧ (decodeOp o op q = .abort ↔ op = 0x08) ∧
      (decodeOp o op q = .getTarget ↔ op = 0x0F) ∧ (decodeOp o op q = .emptyFrame ↔ op = 0x0D) ∧
      (decodeOp o op q = .unassigned op ↔
        op = 0x00 ∨ (0x09 ≤ op.toNat ∧ op.toNat ≤ 0x0C) ∨ op = 0x0E ∨ 0x10 ≤ op.toNat)

/-! ### Circular buffers -/

/-- A circular buffer of capacity `n` answers every sequence of pushes, pops and clears as a queue of at most `n - 1`
elements does that starts with the buffer's occupied slots. -/
def Obligations.FifoActsAsBoundedQueue : Prop :=
  ∀ (α : Type) [DecidableEq α] [Inhabited α] (n : Nat) (f : Fifo α) (ops : List (FifoOp α)), f.Ok n →
    f.results n ops = queueResults n (f.contents n) ops ∧ (f.after n ops).Ok n

/-- R75: from an empty buffer and without `clear`, the buffer reports full exactly when it holds `N - 1` accepted items not
yet popped, refuses a push exactly then, and reports empty exactly when as many items were popped as were accepted. -/
def Obligations.FifoCapacityLaw : Prop :=
  ∀ (α : Type) [DecidableEq α] [Inhabited α] (n : Nat) (f : Fifo α) (ops : List (FifoOp α)) (x : α),
    f.Ok n → f.isEmpty = true → FifoOp.clear ∉ ops →
      let pushed := acceptedCount (f.results n ops)
      let popped := poppedCount (f.results n ops)
      ((f.after n ops).isFull n = true ↔ pushed = popped + (n - 1)) ∧
        ((f.after n ops).push n x = none ↔ pushed = popped + (n - 1)) ∧
        ((f.after n ops).isEmpty = true ↔ pushed = popped)

/-! ### Serial transport -/

/-- R77: a received byte goes behind the others and a pushed 0x0D is counted; when the FIFO is full the byte is dropped and
nothing else changes. Only the slot at `rx_head` is written. -/
def Obligations.ReceivedByteIsPushedOrDropped : Prop :=
  ∀ (s : State) (b : Byte), s.Shaped → s.LinesCounted → s.nextEvent = .rxByte b →
    (s.rx.isFull s.cfg.nRx = true → step s = .next s.advance) ∧
    (s.rx.isFull s.cfg.nRx = false → ∃ rx : Fifo Byte,
      step s = .next { s.advance with rx := rx, rxLines := if b = terminator then s.rxLines + 1 else s.rxLines } ∧
        rx.contents s.cfg.nRx = s.rx.contents s.cfg.nRx ++ [b] ∧ rx.tail = s.rx.tail ∧
        rx.head = (s.rx.head + 1) % s.cfg.nRx ∧
        ∀ i, Memory.read rx.mem i = if i = s.rx.head then b else Memory.read s.rx.mem i)

/-- R78: the TX handler, enabled by `txie` and by `tx_ready` (which the event stands for), sends the oldest byte, or clears
`txie` when there is none. -/
def Obligations.TransmitReadySendsOrDisables : Prop :=
  ∀ s : State, s.Shaped → s.nextEvent = .txReady → s.txie = true →
    (s.tx.contents s.cfg.nTx = [] → step s = .next { s.advance with txie := false }) ∧
    (∀ (b : Byte) (rest : List Byte), s.tx.contents s.cfg.nTx = b :: rest →
      ∃ tx : Fifo Byte, step s = .next { s.advance with tx := tx, emitted := .tx b :: s.emitted } ∧
        tx.contents s.cfg.nTx = rest ∧ tx.mem = s.tx.mem ∧ tx.head = s.tx.head ∧
        tx.tail = (s.tx.tail + 1) % s.cfg.nTx)

/-- The model's reading of a hold (R13, R80, R81; log 3): while the controller's transition would hold, its turn changes nothing: READ_OP, PAYLOAD and DISCARD
with the RX FIFO empty, RESPOND with a byte to write and the TX FIFO full. -/
def Obligations.HoldingControllerChangesNothing : Prop :=
  ∀ s : State, s.nextEvent = .controller →
    ((s.ctrl.ctl = .readOp ∨ (s.ctrl.ctl = .payload ∧ s.ctrl.pcount < 12) ∨ s.ctrl.ctl = .discard) →
      s.rx.isEmpty = true → step s = .next s.advance) ∧
    (s.ctrl.ctl = .respond → s.ctrl.ridx < s.ctrl.resp.length → s.tx.isFull s.cfg.nTx = true →
      step s = .next s.advance)

/-- R83: after `lineAvailable()`, the readByte calls up to and including the first 0x0D in the RX FIFO do not hold; they
give the bytes in order and count that one line off. -/
def Obligations.AvailableLineIsReadWithoutHold : Prop :=
  ∀ s : State, s.Shaped → s.LinesCounted → s.lineAvailable = true →
    ∃ (line : List Byte) (t : State),
      readBytes (line.length + 1) s = some (line ++ [terminator], t) ∧ terminator ∉ line ∧
        s.rx.contents s.cfg.nRx = line ++ terminator :: t.rx.contents t.cfg.nRx ∧ t.rxLines + 1 = s.rxLines ∧ t.LinesCounted

/-! ### The controller -/

/-- R103: POLL goes to READ_OP when a line is counted, else to SPIN, and changes nothing else. -/
def Obligations.PollGoesToReadOpOrSpin : Prop :=
  ∀ s : State, s.nextEvent = .controller → s.ctrl.ctl = .poll →
    step s = .next { s.advance with ctrl := { s.ctrl with ctl := if s.rxLines = 0 then .spin else .readOp } }

/-- R104: READ_OP reads the opcode byte and goes to SPIN for 0x0D, to PAYLOAD for 0x01 and 0x02, else to EXEC. -/
def Obligations.ReadOpReadsOpcode : Prop :=
  ∀ (s : State) (b : Byte) (rest : List Byte), s.Shaped → s.LinesCounted → s.nextEvent = .controller →
    s.ctrl.ctl = .readOp → s.rx.contents s.cfg.nRx = b :: rest →
      ∃ rx : Fifo Byte,
        step s = .next { s.advance with
          rx := rx
          rxLines := if b = terminator then s.rxLines - 1 else s.rxLines
          ctrl := { s.ctrl with
            op := b, pcount := 0
            ctl := if b = terminator then .spin else if b = 0x01 ∨ b = 0x02 then .payload else .exec } } ∧
        rx.contents s.cfg.nRx = rest ∧ rx.mem = s.rx.mem ∧ rx.head = s.rx.head

/-- R105: PAYLOAD takes any byte, 0x0D too, into `pbuf[pcount]`; after the twelfth it goes to EXEC. -/
def Obligations.PayloadIsReadBlind : Prop :=
  ∀ (s : State) (b : Byte) (rest : List Byte), s.Shaped → s.LinesCounted → s.nextEvent = .controller →
    s.ctrl.ctl = .payload → s.ctrl.pcount < 12 → s.rx.contents s.cfg.nRx = b :: rest →
      ∃ (rx : Fifo Byte) (pbuf : Vector Byte 12),
        step s = .next { s.advance with
          rx := rx
          rxLines := if b = terminator then s.rxLines - 1 else s.rxLines
          ctrl := { s.ctrl with
            pbuf := pbuf, pcount := s.ctrl.pcount + 1
            ctl := if s.ctrl.pcount + 1 = 12 then .exec else .payload } } ∧
        rx.contents s.cfg.nRx = rest ∧ rx.mem = s.rx.mem ∧ rx.head = s.rx.head ∧
        ∀ j : Fin 12, pbuf[j] = if j.val = s.ctrl.pcount then b else s.ctrl.pbuf[j]

/-- R106, R104: a step with the controller's turn performs the command that the received bytes decode to: at EXEC the one
that `op` and `pbuf` stand for; at READ_OP, with a lone 0x0D to read, the empty frame. Around `exec` the step only takes
the event off the schedule (and, at READ_OP, reads the byte). -/
def Obligations.StepRunsDecodedCommand : Prop :=
  (∀ (s : State) (i : Instr) (rest : List Byte), s.nextEvent = .controller → s.ctrl.ctl = .exec →
    s.ctrl.op ≠ terminator → decode s.cfg.codecOrder (s.ctrl.op :: s.ctrl.pbuf.toList) = .command i rest →
      i.wf = true ∧ step s = exec i s.advance) ∧
  (∀ (s t : State), s.nextEvent = .controller → s.ctrl.ctl = .readOp → s.advance.readByte = some (terminator, t) →
    step s = exec .emptyFrame { t with ctrl := { t.ctrl with op := terminator, pcount := 0 } })

/-- R107: RESPOND writes the next response byte behind the TX FIFO's others and enables the TX handler, or, when all are
written, goes to DISCARD. -/
def Obligations.RespondWritesResponseInOrder : Prop :=
  ∀ s : State, s.Shaped → s.nextEvent = .controller → s.ctrl.ctl = .respond →
    (s.ctrl.ridx = s.ctrl.resp.length → step s = .next { s.advance with ctrl := { s.ctrl with ctl := .discard } }) ∧
    (∀ b : Byte, s.ctrl.resp[s.ctrl.ridx]? = some b → s.tx.isFull s.cfg.nTx = false →
      ∃ tx : Fifo Byte,
        step s = .next { s.advance with
          tx := tx, txie := true, ctrl := { s.ctrl with ridx := s.ctrl.ridx + 1 } } ∧
        tx.contents s.cfg.nTx = s.tx.contents s.cfg.nTx ++ [b] ∧ tx.tail = s.tx.tail ∧
        ∀ i, Memory.read tx.mem i = if i = s.tx.head then b else Memory.read s.tx.mem i)

/-- R108: DISCARD reads bytes up to and including the next 0x0D and then goes to SPIN; over a whole rest of a line it
changes nothing but the RX FIFO, the line counter and `ctl`. -/
def Obligations.DiscardReadsThroughTerminator : Prop :=
  ∀ (s : State) (junk rest : List Byte) (es : List Event), s.Shaped → s.LinesCounted → s.ctrl.ctl = .discard →
    s.rx.contents s.cfg.nRx = junk ++ terminator :: rest → terminator ∉ junk →
    s.sched = List.replicate (junk.length + 1) .controller ++ es →
      ∃ rx : Fifo Byte,
        runSteps (junk.length + 1) s = .next { s with
          rx := rx, rxLines := s.rxLines - 1, ctrl := { s.ctrl with ctl := .spin }, sched := es } ∧
        rx.contents s.cfg.nRx = rest ∧ rx.mem = s.rx.mem ∧ rx.head = s.rx.head

/-- R109, R100, R97: SPIN starts the next waypoint's move when no move is in flight and one is queued: the waypoint leaves
the queue and becomes `target`, each axis gets its direction by a signed comparison, and the first step is taken in the
same event; otherwise only `ctl` changes. -/
def Obligations.SpinStartsNextMove : Prop :=
  ∀ s : State, s.Shaped → s.nextEvent = .controller → s.ctrl.ctl = .spin →
    ((s.motion.moving = true ∨ s.mq.contents s.cfg.nMq = []) →
      step s = .next { s.advance with ctrl := { s.ctrl with ctl := .poll } }) ∧
    (∀ (w : Pos4) (rest : List Pos4), s.motion.moving = false → s.mq.contents s.cfg.nMq = w :: rest →
      ∃ (mq : Fifo Pos4) (m : Motion) (out : List Emission) (pulses : Axes (Option Bool)),
        step s = .next { s.advance with
          mq := mq, motion := m, emitted := out, ctrl := { s.ctrl with ctl := .poll } } ∧
        mq.contents s.cfg.nMq = rest ∧ mq.mem = s.mq.mem ∧ mq.head = s.mq.head ∧ m.target = w ∧
        (∀ a, m.dir.get a = decide ((s.motion.current.get a).toInt < (w.get a).toInt)) ∧
        (∀ a, (m.current.get a).toInt =
          (s.motion.current.get a).toInt + ((w.get a).toInt - (s.motion.current.get a).toInt).sign) ∧
        (∀ a, pulses.get a =
          if s.motion.current.get a ≠ w.get a ∧ s.cfg.physical.get a = true then some (m.dir.get a) else none) ∧
        (out = if ∀ a ∈ [Axis.x, .y, .theta, .phi], pulses.get a = none then s.emitted
          else .pulses pulses :: s.emitted) ∧
        (m.moving = true ↔ m.current ≠ w) ∧ (m.current ≠ w → m.timerArmed = true) ∧
        (m.current = w → m.timerArmed = s.motion.timerArmed))

/-- R103 to R108, R57: the controller alone takes a well-formed command from the RX FIFO, performs it, writes its whole
response behind the bytes waiting in the TX FIFO, and discards its terminator: the bytes behind the frame, and the motion,
are as before, and the movement queue and the emissions are as the command leaves them. -/
def Obligations.CommandIsReadPerformedAndAnswered : Prop :=
  ∀ (s v : State) (i : Instr) (rest : List Byte) (es : List Event), s.Inv → s.ctrl.ctl = .poll → i.wf = true →
    i ≠ .emptyFrame → s.rx.contents s.cfg.nRx = encode s.cfg.codecOrder i ++ rest → exec i s = .next v →
    s.tx.count s.cfg.nTx + v.ctrl.resp.length < s.cfg.nTx →
    s.sched = List.replicate ((encode s.cfg.codecOrder i).length + v.ctrl.resp.length + 3) .controller ++ es →
      ∃ t : State,
        runSteps ((encode s.cfg.codecOrder i).length + v.ctrl.resp.length + 3) s = .next t ∧
          t.ctrl.ctl = .spin ∧ t.rx.contents s.cfg.nRx = rest ∧ t.rxLines + 1 = s.rxLines ∧
          t.tx.contents s.cfg.nTx = s.tx.contents s.cfg.nTx ++ v.ctrl.resp ∧ t.mq = v.mq ∧ t.emitted = v.emitted ∧
          t.motion = s.motion ∧ t.cfg = s.cfg ∧ t.sched = es

/-- R64, R104: an empty frame is consumed alone: POLL and READ_OP take its one byte and go to SPIN; nothing is performed,
answered or discarded. -/
def Obligations.EmptyFrameIsConsumedAlone : Prop :=
  ∀ (s : State) (rest : List Byte) (es : List Event), s.Inv → s.ctrl.ctl = .poll →
    s.rx.contents s.cfg.nRx = terminator :: rest → s.sched = .controller :: .controller :: es →
      ∃ rx : Fifo Byte,
        runSteps 2 s = .next { s with
          rx := rx, rxLines := s.rxLines - 1, ctrl := { s.ctrl with op := terminator, pcount := 0, ctl := .spin }
          sched := es } ∧
        rx.contents s.cfg.nRx = rest

/-! ### Commands -/

/-- R110, R91: MOVE_ABS, opcode 0x01, queues the payload's four positions verbatim behind the others and answers
`0E 0B 0D`; with the queue full it answers `0E 0C 0D` and leaves the queue unchanged. Nothing else changes; only the slot at
`mq_head` is written. -/
def Obligations.MoveAbsQueuesVerbatim : Prop :=
  ∀ (s : State) (p : Pos4) (q : Vector Byte 12), s.Shaped →
    decodeOp s.cfg.codecOrder 0x01 q = .moveAbs (decode4 s.cfg.codecOrder q) ∧
    (s.mq.isFull s.cfg.nMq = true →
      exec (.moveAbs p) s =
        .next { s with ctrl := { s.ctrl with resp := [0x0E, 0x0C, 0x0D], ridx := 0, ctl := .respond } }) ∧
    (s.mq.isFull s.cfg.nMq = false → ∃ mq : Fifo Pos4,
      exec (.moveAbs p) s =
        .next { s with mq := mq, ctrl := { s.ctrl with resp := [0x0E, 0x0B, 0x0D], ridx := 0, ctl := .respond } } ∧
        mq.contents s.cfg.nMq = s.mq.contents s.cfg.nMq ++ [p] ∧ mq.tail = s.mq.tail ∧
        mq.head = (s.mq.head + 1) % s.cfg.nMq ∧
        ∀ i, Memory.read mq.mem i = if i = s.mq.head then p else Memory.read s.mq.mem i)

/-- R111, R92, R90, R88: MOVE_REL, opcode 0x02, queues for each axis the endgoal plus the delta when the exact sum lies in
`[POSITION_MIN, POSITION_MAX]`, else the endgoal, and answers `10 0B 0D`; with the queue full it answers `10 0C 0D` and
queues nothing. The endgoal is the last queued waypoint, or `target` when none is queued. Nothing else changes. -/
def Obligations.MoveRelQueuesSaturatedSum : Prop :=
  ∀ (s : State) (d : Pos4) (q : Vector Byte 12), s.Shaped →
    decodeOp s.cfg.codecOrder 0x02 q = .moveRel (decode4 s.cfg.codecOrder q) ∧
    (s.mq.isFull s.cfg.nMq = true →
      exec (.moveRel d) s =
        .next { s with ctrl := { s.ctrl with resp := [0x10, 0x0C, 0x0D], ridx := 0, ctl := .respond } }) ∧
    (s.mq.isFull s.cfg.nMq = false → ∃ (mq : Fifo Pos4) (w : Pos4),
      exec (.moveRel d) s =
        .next { s with mq := mq, ctrl := { s.ctrl with resp := [0x10, 0x0B, 0x0D], ridx := 0, ctl := .respond } } ∧
        mq.contents s.cfg.nMq = s.mq.contents s.cfg.nMq ++ [w] ∧ mq.tail = s.mq.tail ∧
        (∀ i, Memory.read mq.mem i = if i = s.mq.head then w else Memory.read s.mq.mem i) ∧
        ∀ a : Axis,
          let e : Int := (((s.mq.contents s.cfg.nMq).getLast?.getD s.motion.target).get a).toInt
          let sum : Int := e + (d.get a).toInt
          (w.get a).toInt = if s.cfg.posMin ≤ sum ∧ sum ≤ s.cfg.posMax then sum else e)

/-- R112: GET_POS, opcode 0x03, answers 0x0A, the twelve codec bytes of `current`, 0x0D (14 bytes), from which a receiver
decodes `current`; nothing else changes. -/
def Obligations.GetPosAnswersCurrent : Prop :=
  ∀ (s : State) (q : Vector Byte 12), decodeOp s.cfg.codecOrder 0x03 q = .getPos ∧
    ∃ r : Vector Byte 12,
      exec .getPos s =
        .next { s with ctrl := { s.ctrl with resp := 0x0A :: r.toList ++ [0x0D], ridx := 0, ctl := .respond } } ∧
      r.toList = encode4 s.cfg.codecOrder s.motion.current ∧ decode4 s.cfg.codecOrder r = s.motion.current

/-- R118, R95, R90: GET_TARGET, opcode 0x0F, answers 0x0A, the twelve codec bytes of the endgoal, 0x0D (14 bytes), from which
a receiver decodes the endgoal: the last queued waypoint, or `target` when none is queued; nothing else changes. -/
def Obligations.GetTargetAnswersEndgoal : Prop :=
  ∀ (s : State) (q : Vector Byte 12), s.Shaped →
    decodeOp s.cfg.codecOrder 0x0F q = .getTarget ∧
    ∃ r : Vector Byte 12,
      exec .getTarget s =
        .next { s with ctrl := { s.ctrl with resp := 0x0A :: r.toList ++ [0x0D], ridx := 0, ctl := .respond } } ∧
      r.toList = encode4 s.cfg.codecOrder ((s.mq.contents s.cfg.nMq).getLast?.getD s.motion.target) ∧
      decode4 s.cfg.codecOrder r = (s.mq.contents s.cfg.nMq).getLast?.getD s.motion.target

/-- R113, R114: HOME_X, opcode 0x04, emits Home(X) and HOME_Y, opcode 0x05, emits Home(Y); neither changes anything else or
answers anything. -/
def Obligations.HomeCommandsEmitTheirOwnAxis : Prop :=
  ∀ (s : State) (q : Vector Byte 12),
    decodeOp s.cfg.codecOrder 0x04 q = .homeX ∧ decodeOp s.cfg.codecOrder 0x05 q = .homeY ∧
    exec .homeX s =
      .next { s with
        emitted := .home .x :: s.emitted, ctrl := { s.ctrl with resp := [], ridx := 0, ctl := .respond } } ∧
    exec .homeY s =
      .next { s with
        emitted := .home .y :: s.emitted, ctrl := { s.ctrl with resp := [], ridx := 0, ctl := .respond } }

/-- R115, R116: START, opcode 0x06, and STOP, opcode 0x07, change nothing and answer nothing. -/
def Obligations.StartAndStopChangeNothing : Prop :=
  ∀ (s : State) (q : Vector Byte 12),
    decodeOp s.cfg.codecOrder 0x06 q = .start ∧ decodeOp s.cfg.codecOrder 0x07 q = .stop ∧
    exec .start s = .next { s with ctrl := { s.ctrl with resp := [], ridx := 0, ctl := .respond } } ∧
    exec .stop s = .next { s with ctrl := { s.ctrl with resp := [], ridx := 0, ctl := .respond } }

/-- R117, R93: ABORT, opcode 0x08, sets `tail = head` and so discards every queued waypoint; the move in flight, storage and
everything else stay as they are, the endgoal is `target`, and nothing is answered. -/
def Obligations.AbortDiscardsQueueOnly : Prop :=
  ∀ (s : State) (q : Vector Byte 12), decodeOp s.cfg.codecOrder 0x08 q = .abort ∧
    ∃ mq : Fifo Pos4,
      exec .abort s =
        .next { s with mq := mq, ctrl := { s.ctrl with resp := [], ridx := 0, ctl := .respond } } ∧
      mq.mem = s.mq.mem ∧ mq.head = s.mq.head ∧ mq.tail = s.mq.head ∧ mq.contents s.cfg.nMq = [] ∧
      { s with mq := mq }.endgoal = s.motion.target

/-- R104, R64: performing the empty frame only sends the controller to SPIN. -/
def Obligations.EmptyFrameOnlyGoesToSpin : Prop :=
  ∀ (s : State) (q : Vector Byte 12), decodeOp s.cfg.codecOrder 0x0D q = .emptyFrame ∧
    exec .emptyFrame s = .next { s with ctrl := { s.ctrl with ctl := .spin } }

/-- R119: every opcode byte that R61 does not list, 0x0D aside, changes nothing and answers nothing. -/
def Obligations.UnassignedOpcodesChangeNothing : Prop :=
  ∀ (s : State) (op : Byte) (q : Vector Byte 12),
    op ∉ [0x01, 0x02, 0x03, 0x04, 0x05, 0x06, 0x07, 0x08, 0x0F, 0x0D] →
      decodeOp s.cfg.codecOrder op q = .unassigned op ∧
      exec (.unassigned op) s = .next { s with ctrl := { s.ctrl with resp := [], ridx := 0, ctl := .respond } }

/-- The frame of all commands (R110 to R119): none changes positions, motion, the byte FIFOs, the line counter, `txie`, `op`,
`pbuf` or `pcount`; only MOVE_ABS, MOVE_REL and ABORT change the movement queue, and of its storage only the slot at
`mq_head`; only HOME_X and HOME_Y emit anything. -/
def Obligations.CommandsChangeOnlyTheirOwnState : Prop :=
  ∀ (i : Instr) (s t : State), s.Shaped → exec i s = .next t →
    t.cfg = s.cfg ∧ t.motion = s.motion ∧ t.rx = s.rx ∧ t.rxLines = s.rxLines ∧ t.tx = s.tx ∧ t.txie = s.txie ∧
      t.ctrl.op = s.ctrl.op ∧ t.ctrl.pbuf = s.ctrl.pbuf ∧ t.ctrl.pcount = s.ctrl.pcount ∧
      t.sched = s.sched ∧ t.turn = s.turn ∧
      (t.mq ≠ s.mq → (∃ p, i = .moveAbs p) ∨ (∃ d, i = .moveRel d) ∨ i = .abort) ∧
      (∀ k, k ≠ s.mq.head → Memory.read t.mq.mem k = Memory.read s.mq.mem k) ∧
      (i = .abort → t.mq.mem = s.mq.mem) ∧
      (t.emitted ≠ s.emitted → i = .homeX ∨ i = .homeY)

/-- R62, R63: what a command answers is empty or a frame of 3 bytes (moves) or 14 bytes (position queries) that ends with
0x0D and holds no other 0x0D; it fits the response register of R30. -/
def Obligations.ResponsesAreFrames : Prop :=
  ∀ (i : Instr) (s t : State), i ≠ .emptyFrame → exec i s = .next t →
    t.ctrl.ctl = .respond ∧ t.ctrl.ridx = 0 ∧
      (t.ctrl.resp ≠ [] → t.ctrl.resp.getLast? = some 0x0D ∧ (0x0D : Byte) ∉ t.ctrl.resp.dropLast) ∧
      t.ctrl.resp.length =
        match i with
        | .moveAbs _ => 3
        | .moveRel _ => 3
        | .getPos => 14
        | .getTarget => 14
        | .homeX | .homeY | .start | .stop | .abort | .emptyFrame | .unassigned _ => 0

/-! ### Motion -/

/-- R88, R89: saturating addition is the exact sum when it lies in `[POSITION_MIN, POSITION_MAX]`, both bounds included, and
the first operand otherwise, on each axis by itself; it never wraps. -/
def Obligations.SatAddIsExactOrFirstOperand : Prop :=
  ∀ (c : Config) (p d : Pos4) (a : Axis), c.Valid →
    let sum : Int := (p.get a).toInt + (d.get a).toInt
    ((satAdd4 c p d).get a).toInt = if c.posMin ≤ sum ∧ sum ≤ c.posMax then sum else (p.get a).toInt

/-- R101, R99, R98: an expiry of the armed timer takes one tick: every axis short of its target moves one unit toward it,
and a physical one gets one step request in its direction; the others stay; `target` and `dir` stay; the timer is armed
again exactly when some axis is still short, and otherwise the move is over. -/
def Obligations.TimerExpiryTakesOneTick : Prop :=
  ∀ s : State, s.Inv → s.nextEvent = .timerExpiry → s.motion.timerArmed = true →
    ∃ (m : Motion) (out : List Emission) (pulses : Axes (Option Bool)),
      step s = .next { s.advance with motion := m, emitted := out } ∧
        m.target = s.motion.target ∧ m.dir = s.motion.dir ∧
        (∀ a, (m.current.get a).toInt =
          (s.motion.current.get a).toInt +
            ((s.motion.target.get a).toInt - (s.motion.current.get a).toInt).sign) ∧
        (∀ a, axisDistance m.current m.target a = axisDistance s.motion.current s.motion.target a - 1) ∧
        (∀ a, pulses.get a =
          if s.motion.current.get a ≠ s.motion.target.get a ∧ s.cfg.physical.get a = true
          then some (s.motion.dir.get a) else none) ∧
        (out = if ∀ a ∈ [Axis.x, .y, .theta, .phi], pulses.get a = none then s.emitted
          else .pulses pulses :: s.emitted) ∧
        (m.timerArmed = true ↔ m.current ≠ m.target) ∧ (m.moving = true ↔ m.current ≠ m.target)

/-- The model's reading of an event that is not enabled (log 3): a timer expiry while the timer is not armed, and a TX-ready
event while `txie` is 0, change nothing. -/
def Obligations.DisabledHandlersChangeNothing : Prop :=
  ∀ s : State,
    (s.nextEvent = .timerExpiry → s.motion.timerArmed = false → step s = .next s.advance) ∧
    (s.nextEvent = .txReady → s.txie = false → step s = .next s.advance)

/-- R102: a move from `c` to `w` takes exactly `max (1, M)` StepTicks, `M` the largest distance of an axis: one in SPIN and
`M - 1` at timer expiries; before the last of them it is still in flight, at the last it is over with `current = w`; a
physical axis gets exactly as many step requests as its distance, all in its direction, and a counter-only axis none. -/
def Obligations.MoveTakesExactlyItsSteps : Prop :=
  ∀ (s : State) (w : Pos4) (rest : List Pos4) (es : List Event), s.Inv → s.ctrl.ctl = .spin →
    s.motion.moving = false → s.mq.contents s.cfg.nMq = w :: rest →
    s.sched = .controller :: (List.replicate (moveLength s.motion.current w - 1) .timerExpiry ++ es) →
      (∀ k, 1 ≤ k → k < moveLength s.motion.current w →
        ∃ u, runSteps k s = .next u ∧ u.motion.moving = true ∧ u.motion.current ≠ w) ∧
      ∃ t, runSteps (1 + (moveLength s.motion.current w - 1)) s = .next t ∧
        t.motion.current = w ∧ t.motion.target = w ∧ t.motion.moving = false ∧ t.motion.timerArmed = false ∧
        t.mq.contents t.cfg.nMq = rest ∧ t.sched = es ∧
        ∀ a d, pulseCount a d t.emitted = pulseCount a d s.emitted +
          if s.cfg.physical.get a = true ∧ d = decide ((s.motion.current.get a).toInt < (w.get a).toInt)
          then axisDistance s.motion.current w a else 0

/-- R96, R19 to R23: apart from a power cycle, the motion state changes only at an expiry of the armed timer and in a SPIN
transition that finds no move in flight and a queued waypoint; `target` and `dir` change only in the latter. -/
def Obligations.MotionChangesOnlyInTicks : Prop :=
  ∀ s t : State, step s = .next t → s.nextEvent ≠ .powerOn →
    let starts := s.nextEvent = .controller ∧ s.ctrl.ctl = .spin ∧ s.motion.moving = false ∧ s.mq.isEmpty = false
    (t.motion ≠ s.motion → (s.nextEvent = .timerExpiry ∧ s.motion.timerArmed = true) ∨ starts) ∧
      (t.motion.target ≠ s.motion.target ∨ t.motion.dir ≠ s.motion.dir → starts)

/-! ### Events -/

/-- R128: a handler writes only the state its rule names and never the controller's: the RX handler the RX FIFO and the line
counter, the TX handler the TX FIFO, `txie` and the serial output, the step-timer handler the motion state and the step
requests. -/
def Obligations.HandlersLeaveControllerAlone : Prop :=
  ∀ s t : State, step s = .next t →
    (∀ b, s.nextEvent = .rxByte b → t = { s.advance with rx := t.rx, rxLines := t.rxLines }) ∧
    (s.nextEvent = .txReady → t = { s.advance with tx := t.tx, txie := t.txie, emitted := t.emitted }) ∧
    (s.nextEvent = .timerExpiry → t = { s.advance with motion := t.motion, emitted := t.emitted })

/-- R50: apart from a power cycle, each index of a FIFO is written by one agent alone: `rx_head` by the RX handler, `rx_tail`
and `tx_head` by the controller, `tx_tail` by the TX handler, both indices of the movement queue by the controller. -/
def Obligations.EachIndexHasOneWriter : Prop :=
  ∀ s t : State, step s = .next t → s.nextEvent ≠ .powerOn →
    (t.rx.head ≠ s.rx.head → ∃ b, s.nextEvent = .rxByte b) ∧
    (t.rx.tail ≠ s.rx.tail → s.nextEvent = .controller) ∧
    (t.tx.head ≠ s.tx.head → s.nextEvent = .controller) ∧
    (t.tx.tail ≠ s.tx.tail → s.nextEvent = .txReady) ∧
    (t.mq.head ≠ s.mq.head ∨ t.mq.tail ≠ s.mq.tail → s.nextEvent = .controller)

/-- R127: handler events that are pending together may be taken in any order: the RX handler commutes with the other two, and
the TX handler with the step-timer handler but for the order in which their outputs are recorded. -/
def Obligations.HandlersCommute : Prop :=
  ∀ (s : State) (b : Byte),
    txHandler (rxHandler b s) = rxHandler b (txHandler s) ∧
    timerHandler (rxHandler b s) = rxHandler b (timerHandler s) ∧
    { txHandler (timerHandler s) with emitted := [] } = { timerHandler (txHandler s) with emitted := [] } ∧
    sentBytes (txHandler (timerHandler s)).emitted = sentBytes (timerHandler (txHandler s)).emitted ∧
    ∀ a d, pulseCount a d (txHandler (timerHandler s)).emitted = pulseCount a d (timerHandler (txHandler s)).emitted

/-- R98, R13: what has left the block is never taken back; a step emits at most one thing, a step request goes only to a
physical axis, and a homing request only to X or Y. -/
def Obligations.EmissionsOnlyGrow : Prop :=
  ∀ s t : State, step s = .next t →
    t.emitted = s.emitted ∨
      (∃ b, t.emitted = .tx b :: s.emitted) ∨
      (t.emitted = .home .x :: s.emitted ∨ t.emitted = .home .y :: s.emitted) ∨
      ∃ p, t.emitted = .pulses p :: s.emitted ∧ ∀ a, p.get a ≠ none → s.cfg.physical.get a = true

/-- R31: the parameters are fixed for a run: no step changes them. -/
def Obligations.ParametersAreFixed : Prop := ∀ s t : State, step s = .next t → t.cfg = s.cfg

/-- The model's schedule (log 2): a step takes the first event that the environment has fixed, and the free value's when it
has fixed none. The statement holds whatever the free value is. -/
def Obligations.NextEventIsFixedOrFree : Prop :=
  ∀ s : State,
    (∀ e es, s.sched = e :: es → step s = runEvent e { s with sched := es }) ∧
    (s.sched = [] → step s = runEvent (Config.freeEvent s.turn) { s with turn := s.turn + 1 })

/-! ### Reset and invariants -/

/-- R137, R138: right after reset, and after a power cycle (an event of the model, log 12), positions are (0,0,0,0), the one-bit elements and the
FIFO indices and the line counter are 0, `ctl` is POLL, no line is available, and the endgoal is `current`. -/
def Obligations.ResetLeavesIdleAtZero : Prop :=
  ∀ (s t : State), (∃ c, t = State.resetWith c) ∨ (s.nextEvent = .powerOn ∧ step s = .next t) →
    t.motion = { current := ⟨0, 0, 0, 0⟩, target := ⟨0, 0, 0, 0⟩, dir := ⟨false, false, false, false⟩
                 moving := false, timerArmed := false } ∧
      t.rx.head = 0 ∧ t.rx.tail = 0 ∧ t.tx.head = 0 ∧ t.tx.tail = 0 ∧ t.mq.head = 0 ∧ t.mq.tail = 0 ∧
      t.rxLines = 0 ∧ t.txie = false ∧ t.ctrl.ctl = .poll ∧ t.lineAvailable = false ∧
      t.endgoal = t.motion.current

/-- The invariant holds at reset, whatever the (valid) parameters and whatever events are to come. -/
def Obligations.ResetMeetsInvariant : Prop :=
  ∀ (c : Config) (es : List Event) (k : Nat), c.Valid → { State.resetWith c with sched := es, turn := k }.Inv

/-- Every step keeps the invariant, from every state that meets it: capacities and indices in range, storage canonical, R34
to R38, and the controller's registers as its transitions leave them. -/
def Obligations.StepKeepsInvariant : Prop := ∀ s t : State, s.Inv → step s = .next t → t.Inv

/-- R122: no operation and no command traps: from every state that meets the invariant, whichever event comes, a step answers
a next state. -/
def Obligations.NoStepTraps : Prop := ∀ s : State, s.Inv → ∃ t, step s = .next t

/-- R34, R35, R37, R38 in every state of every run from reset, for all valid parameters and every order of events: an armed
timer means a move in flight; with no move in flight `current = target`; `rx_lines` counts the 0x0D bytes in the RX FIFO
and is at most N_RX-1; a TX FIFO that is not empty has its handler enabled. -/
def Obligations.RunsKeepSpecInvariants : Prop :=
  ∀ s : State, Reachable s →
    (s.motion.timerArmed = true → s.motion.moving = true) ∧
      (s.motion.moving = false → s.motion.current = s.motion.target) ∧
      (s.rxLines = (s.rx.contents s.cfg.nRx).count terminator ∧ s.rxLines ≤ s.cfg.nRx - 1) ∧
      (s.tx.isEmpty = false → s.txie = true)

/-- R36 in every state of every run from reset: during a move the direction of each axis not at its target is the way to it,
and whatever step comes next, short of a power cycle, takes the axis nowhere but between where it is and the move's target,
without a wrap. -/
def Obligations.RunsMoveTowardTarget : Prop :=
  ∀ s t : State, Reachable s → s.motion.moving = true → step s = .next t → s.nextEvent ≠ .powerOn →
    ∀ a : Axis,
      (s.motion.current.get a ≠ s.motion.target.get a →
        (s.motion.dir.get a = true ↔ (s.motion.target.get a).toInt > (s.motion.current.get a).toInt)) ∧
      t.motion.target = s.motion.target ∧
      (((s.motion.current.get a).toInt ≤ (t.motion.current.get a).toInt ∧
          (t.motion.current.get a).toInt ≤ (s.motion.target.get a).toInt) ∨
        ((s.motion.target.get a).toInt ≤ (t.motion.current.get a).toInt ∧
          (t.motion.current.get a).toInt ≤ (s.motion.current.get a).toInt))

/-- R152: in a quiescent state the controller only moves between POLL and SPIN and a TX-ready event only clears `txie`; the
block stays quiescent while the host sends nothing and the power stays on. R152 says that no timer expiry can occur there.
That one given to the model changes nothing, as does a TX-ready event with `txie` already 0, is the model's own reading of an
event that is not enabled (log 3), no rule of the spec. -/
def Obligations.QuiescentBlockStaysQuiescent : Prop :=
  ∀ s : State, s.Shaped → s.Quiescent →
    (s.nextEvent = .controller →
      step s = .next { s.advance with ctrl := { s.ctrl with ctl := if s.ctrl.ctl = .poll then .spin else .poll } }) ∧
    (s.nextEvent = .txReady → step s = .next { s.advance with txie := false }) ∧
    (s.nextEvent = .timerExpiry → step s = .next s.advance) ∧
    (∀ t, (∀ b, s.nextEvent ≠ .rxByte b) → s.nextEvent ≠ .powerOn → step s = .next t → t.Quiescent)

/-- R146: an RX FIFO that is full with no counted line while the controller polls stays so whatever events come, short of a
power cycle: every later byte is dropped. -/
def Obligations.RxDeadEndLastsForEver : Prop :=
  ∀ s t : State, s.RxDeadEnd → s.nextEvent ≠ .powerOn → step s = .next t → t.RxDeadEnd ∧ t.rx = s.rx

/-- The model's own stops (log 9), in states that the spec rules out: PAYLOAD with no `pbuf` byte left, RESPOND past the end
of the response, EXEC with 0x0D. -/
def Obligations.ExcludedStatesStop : Prop :=
  ∀ s : State, s.nextEvent = .controller →
    (s.ctrl.ctl = .payload → 12 ≤ s.ctrl.pcount → step s = .fault .payloadIndex) ∧
    (s.ctrl.ctl = .respond → s.ctrl.resp.length < s.ctrl.ridx → step s = .fault .responseIndex) ∧
    (s.ctrl.ctl = .exec → s.ctrl.op = terminator → step s = .fault .terminatorAtExec)
end

