-- ==== Sys2Proof/Laws/Memory.lean ====
section
/-! SUPPORT. Laws of storage: a read after a write, the canonical form kept by every write, equal reads mean equal data. -/

namespace Sys2Proof.Machine

section
variable {α : Type} [DecidableEq α] [Inhabited α]

theorem Memory.wfFrom_mono {low low' : Nat} {m : Memory α} (h : Memory.wfFrom low m = true) (hl : low' ≤ low) :
    Memory.wfFrom low' m = true := by
  cases m with
  | nil => rfl
  | cons e rest =>
    simp only [Memory.wfFrom, Bool.and_eq_true, decide_eq_true_eq] at h ⊢
    exact ⟨⟨hl.trans h.1.1, h.1.2⟩, h.2⟩

/-- Below the first listed index every read gives the unlisted value. -/
theorem Memory.read_of_lt {low i : Nat} {m : Memory α} (h : Memory.wfFrom low m = true) (hi : i < low) :
    Memory.read m i = unlisted α := by
  induction m generalizing low with
  | nil => rfl
  | cons e rest ih =>
    simp only [Memory.wfFrom, Bool.and_eq_true, decide_eq_true_eq] at h
    have hne : i ≠ e.1 := by omega
    simp only [Memory.read, if_neg hne]
    exact ih h.2 (by omega)

theorem Memory.wfFrom_write {low i : Nat} {m : Memory α} (v : α) (h : Memory.wfFrom low m = true) (hi : low ≤ i) :
    Memory.wfFrom low (Memory.write m i v) = true := by
  induction m generalizing low with
  | nil => by_cases hv : v = unlisted α <;> simp [Memory.write, Memory.wfFrom, hv, hi]
  | cons e rest ih =>
    obtain ⟨j, w⟩ := e
    simp only [Memory.wfFrom, Bool.and_eq_true, decide_eq_true_eq] at h
    obtain ⟨⟨hj, hw⟩, hrest⟩ := h
    rcases lt_trichotomy i j with hij | rfl | hji
    · have hji : i + 1 ≤ j := hij
      by_cases hv : v = unlisted α <;>
        simp_all [Memory.write, Memory.wfFrom]
    · by_cases hv : v = unlisted α
      · simpa [Memory.write, hv] using Memory.wfFrom_mono hrest (by omega)
      · simp [Memory.write, Memory.wfFrom, hv, hj, hrest]
    · have h1 : ¬ i < j := by omega
      have h2 : ¬ i = j := by omega
      simpa [Memory.write, Memory.wfFrom, h1, h2, hj, hw] using ih hrest (by omega)

/-- A write keeps the canonical form. -/
theorem Memory.wf_write {m : Memory α} (i : Nat) (v : α) (h : m.wf = true) : (Memory.write m i v).wf = true :=
  Memory.wfFrom_write v h (Nat.zero_le i)

theorem Memory.read_write_from {low : Nat} {m : Memory α} (h : Memory.wfFrom low m = true) (i k : Nat) (v : α) :
    Memory.read (Memory.write m i v) k = if k = i then v else Memory.read m k := by
  induction m generalizing low with
  | nil => by_cases hv : v = unlisted α <;> by_cases hk : k = i <;> simp [Memory.write, Memory.read, hv, hk]
  | cons e rest ih =>
    obtain ⟨j, w⟩ := e
    simp only [Memory.wfFrom, Bool.and_eq_true, decide_eq_true_eq] at h
    obtain ⟨⟨_, hw⟩, hrest⟩ := h
    rcases lt_trichotomy i j with hij | rfl | hji
    · have habs : Memory.read rest i = unlisted α := Memory.read_of_lt hrest (by omega)
      have hne : i ≠ j := by omega
      by_cases hv : v = unlisted α <;> by_cases hk : k = i <;> simp_all [Memory.write, Memory.read]
    · have habs : Memory.read rest i = unlisted α := Memory.read_of_lt hrest (by omega)
      by_cases hv : v = unlisted α <;> by_cases hk : k = i <;> simp_all [Memory.write, Memory.read]
    · have h1 : ¬ i < j := by omega
      have h2 : ¬ i = j := by omega
      have hne : i ≠ j := h2
      by_cases hk : k = j
      · subst hk
        simp [Memory.write, Memory.read, h1, h2, Ne.symm hne]
      · simp [Memory.write, Memory.read, h1, h2, hk, ih hrest]

/-- A read after a write: the value written at that index, the old value everywhere else. -/
theorem Memory.read_write {m : Memory α} (h : m.wf = true) (i k : Nat) (v : α) :
    Memory.read (Memory.write m i v) k = if k = i then v else Memory.read m k :=
  Memory.read_write_from h i k v

/-- A write within the capacity keeps every listed index within it. -/
theorem Memory.below_write {n i : Nat} {m : Memory α} (v : α) (h : m.below n = true) (hi : i < n) :
    (Memory.write m i v).below n = true := by
  induction m with
  | nil => by_cases hv : v = unlisted α <;> simp [Memory.write, Memory.below, hv, hi]
  | cons e rest ih =>
    obtain ⟨j, w⟩ := e
    simp only [Memory.below, List.all_cons, Bool.and_eq_true, decide_eq_true_eq] at h ih
    rcases lt_trichotomy i j with hij | rfl | hji
    · by_cases hv : v = unlisted α <;> simp [Memory.write, Memory.below, hv, hij, h.1, h.2, hi]
    · by_cases hv : v = unlisted α <;> simp [Memory.write, Memory.below, hv, h.2, hi]
    · have h1 : ¬ i < j := by omega
      have h2 : ¬ i = j := by omega
      simpa [Memory.write, Memory.below, h1, h2, h.1] using ih h.2

/-- Two canonical storages that read alike are the same data. -/
theorem Memory.ext_read {low : Nat} {m m' : Memory α} (h : Memory.wfFrom low m = true) (h' : Memory.wfFrom low m' = true)
    (hr : ∀ i, Memory.read m i = Memory.read m' i) : m = m' := by
  induction m generalizing low m' with
  | nil =>
    cases m' with
    | nil => rfl
    | cons e rest =>
      simp only [Memory.wfFrom, Bool.and_eq_true, decide_eq_true_eq] at h'
      exact absurd (by simpa [Memory.read] using (hr e.1).symm) h'.1.2
  | cons e rest ih =>
    obtain ⟨j, w⟩ := e
    simp only [Memory.wfFrom, Bool.and_eq_true, decide_eq_true_eq] at h
    cases m' with
    | nil => exact absurd (by simpa [Memory.read] using hr j) h.1.2
    | cons e' rest' =>
      obtain ⟨j', w'⟩ := e'
      simp only [Memory.wfFrom, Bool.and_eq_true, decide_eq_true_eq] at h'
      have hj : j = j' := by
        rcases lt_trichotomy j j' with hlt | heq | hgt
        · have h0 : Memory.read rest' j = unlisted α := Memory.read_of_lt h'.2 (by omega)
          have := hr j
          simp only [Memory.read, if_true, if_neg (Nat.ne_of_lt hlt), h0] at this
          exact absurd this h.1.2
        · exact heq
        · have h0 : Memory.read rest j' = unlisted α := Memory.read_of_lt h.2 (by omega)
          have := hr j'
          simp only [Memory.read, if_true, if_neg (Nat.ne_of_lt hgt), h0] at this
          exact absurd this.symm h'.1.2
      subst hj
      have hw : w = w' := by simpa [Memory.read] using hr j
      subst hw
      refine congrArg _ (ih h.2 h'.2 fun i => ?_)
      by_cases hi : i = j
      · subst hi
        rw [Memory.read_of_lt h.2 (Nat.lt_succ_self _), Memory.read_of_lt h'.2 (Nat.lt_succ_self _)]
      · simpa [Memory.read, hi] using hr i

end

end Sys2Proof.Machine
end

