-- ==== Sys2Proof/Laws/Fifo.lean ====
section
/-! SUPPORT. Laws of circular buffers (40_fifo.md R68 to R76): what each operation does to the occupied slots, read oldest
first, and that each keeps the buffer in shape. -/

namespace Sys2Proof.Machine

/-- One reduction modulo `n` of a number below `2 * n`. -/
theorem mod_of_lt_double {n x : Nat} (h : x < 2 * n) : x % n = if x < n then x else x - n := by
  split
  · exact Nat.mod_eq_of_lt ‹_›
  · rw [Nat.mod_eq_sub_mod (by omega), Nat.mod_eq_of_lt (by omega)]

section
variable {α : Type} [DecidableEq α] [Inhabited α] {n : Nat} {f g : Fifo α} {x : α}

theorem Fifo.Ok.pos (h : f.Ok n) : 0 < n := Nat.lt_of_le_of_lt (Nat.zero_le _) h.1

theorem Fifo.Ok.count_eq (h : f.Ok n) : f.count n = if f.tail ≤ f.head then f.head - f.tail else f.head + n - f.tail := by
  obtain ⟨hh, ht, -, -⟩ := h
  rw [Fifo.count, mod_of_lt_double (by omega)]
  split <;> split <;> omega

theorem Fifo.Ok.count_lt (h : f.Ok n) : f.count n < n := Nat.mod_lt _ h.pos

theorem Fifo.Ok.isEmpty_iff (h : f.Ok n) : f.isEmpty = true ↔ f.count n = 0 := by
  have hc := h.count_eq
  obtain ⟨hh, ht, -, -⟩ := h
  simp only [Fifo.isEmpty, beq_iff_eq]
  split at hc <;> omega

theorem Fifo.Ok.isFull_iff (h : f.Ok n) : f.isFull n = true ↔ f.count n = n - 1 := by
  have hc := h.count_eq
  obtain ⟨hh, ht, -, -⟩ := h
  simp only [Fifo.isFull, beq_iff_eq]
  rw [mod_of_lt_double (by omega)]
  split at hc <;> split <;> omega

omit [DecidableEq α] in
@[simp] theorem Fifo.length_contents : (f.contents n).length = f.count n := by simp [Fifo.contents]

theorem Fifo.Ok.contents_eq_nil_iff (h : f.Ok n) : f.contents n = [] ↔ f.isEmpty = true := by
  rw [h.isEmpty_iff, ← List.length_eq_zero_iff, Fifo.length_contents]

/-- The slot just past the occupied ones is `head`. -/
theorem Fifo.Ok.slot_count (h : f.Ok n) : (f.tail + f.count n) % n = f.head := by
  have hc := h.count_eq
  obtain ⟨hh, ht, -, -⟩ := h
  rw [hc]
  split
  · rw [Nat.mod_eq_of_lt (by omega)]
    omega
  · rw [mod_of_lt_double (by omega)]
    split <;> omega

/-- No occupied slot is `head`. -/
theorem Fifo.Ok.slot_ne_head (h : f.Ok n) {k : Nat} (hk : k < f.count n) : (f.tail + k) % n ≠ f.head := by
  have hc := h.count_eq
  obtain ⟨hh, ht, -, -⟩ := h
  rw [hc] at hk
  rw [mod_of_lt_double (by split at hk <;> omega)]
  split at hk <;> split <;> omega

/-- What an accepted push leaves (R71). -/
theorem Fifo.push_eq_some (hg : f.push n x = some g) :
    f.isFull n = false ∧ g.mem = Memory.write f.mem f.head x ∧ g.head = (f.head + 1) % n ∧ g.tail = f.tail := by
  unfold Fifo.push at hg
  split at hg
  · cases hg
  · next hf =>
    cases hg
    exact ⟨by simpa using hf, rfl, rfl, rfl⟩

/-- A push is refused exactly when the buffer is full (R71). -/
theorem Fifo.push_eq_none_iff : f.push n x = none ↔ f.isFull n = true := by
  unfold Fifo.push
  split <;> simp_all

theorem Fifo.push_isSome_of_not_full (h : f.isFull n = false) : ∃ g, f.push n x = some g := by
  simp [Fifo.push, h]

theorem Fifo.Ok.push (h : f.Ok n) (hg : f.push n x = some g) : g.Ok n := by
  obtain ⟨-, hm, hh, ht⟩ := Fifo.push_eq_some hg
  obtain ⟨h1, h2, h3, h4⟩ := h
  refine ⟨hh ▸ Nat.mod_lt _ (by omega), ht ▸ h2, hm ▸ Memory.wf_write _ _ h3, hm ▸ Memory.below_write _ h4 h1⟩

theorem Fifo.Ok.count_push (h : f.Ok n) (hg : f.push n x = some g) : g.count n = f.count n + 1 := by
  have hc := h.count_eq
  have hgc := (h.push hg).count_eq
  obtain ⟨hf, -, hh, ht⟩ := Fifo.push_eq_some hg
  obtain ⟨h1, h2, -, -⟩ := h
  simp only [Fifo.isFull, beq_eq_false_iff_ne, ne_eq] at hf
  rw [mod_of_lt_double (by omega)] at hf hh
  rw [hc, hgc, hh, ht]
  split <;> split <;> split at hf <;> split <;> omega

/-- A push adds its item behind the others (R71, R76). -/
theorem Fifo.Ok.contents_push (h : f.Ok n) (hg : f.push n x = some g) : g.contents n = f.contents n ++ [x] := by
  have hcount := h.count_push hg
  obtain ⟨-, hm, -, ht⟩ := Fifo.push_eq_some hg
  unfold Fifo.contents
  rw [hcount, List.range_succ, List.map_append, List.map_singleton, hm, ht,
    Memory.read_write h.2.2.1, if_pos h.slot_count]
  refine congrArg (· ++ [x]) (List.map_congr_left fun k hk => ?_)
  rw [Memory.read_write h.2.2.1, if_neg (h.slot_ne_head (List.mem_range.1 hk))]

omit [DecidableEq α] in
/-- A pop finds nothing exactly when the buffer is empty (R72). -/
theorem Fifo.pop_eq_none_iff : f.pop n = none ↔ f.isEmpty = true := by
  unfold Fifo.pop
  split <;> simp_all

omit [DecidableEq α] in
/-- What a pop that finds an element leaves (R72). -/
theorem Fifo.pop_eq_some (hg : f.pop n = some (x, g)) :
    f.isEmpty = false ∧ x = Memory.read f.mem f.tail ∧ g = { f with tail := (f.tail + 1) % n } := by
  unfold Fifo.pop at hg
  split at hg
  · cases hg
  · next he =>
    cases hg
    exact ⟨by simpa using he, rfl, rfl⟩

theorem Fifo.Ok.pop (h : f.Ok n) (hg : f.pop n = some (x, g)) : g.Ok n := by
  obtain ⟨-, -, rfl⟩ := Fifo.pop_eq_some hg
  exact ⟨h.1, Nat.mod_lt _ h.pos, h.2.2⟩

theorem Fifo.Ok.count_pop (h : f.Ok n) (hg : f.pop n = some (x, g)) : f.count n = g.count n + 1 := by
  have hc := h.count_eq
  have hgc := (h.pop hg).count_eq
  obtain ⟨he, -, rfl⟩ := Fifo.pop_eq_some hg
  obtain ⟨h1, h2, -, -⟩ := h
  simp only [Fifo.isEmpty, beq_eq_false_iff_ne, ne_eq] at he
  dsimp only at hgc
  have hm : (f.tail + 1) % n = if f.tail + 1 < n then f.tail + 1 else f.tail + 1 - n := mod_of_lt_double (by omega)
  rw [hc, hgc, hm]
  split <;> split <;> split <;> omega

/-- A pop takes the oldest element (R72, R76). -/
theorem Fifo.Ok.contents_pop (h : f.Ok n) (hg : f.pop n = some (x, g)) : f.contents n = x :: g.contents n := by
  have hcount := h.count_pop hg
  obtain ⟨-, rfl, rfl⟩ := Fifo.pop_eq_some hg
  unfold Fifo.contents
  rw [hcount, List.range_succ_eq_map, List.map_cons, List.map_map, Nat.add_zero, Nat.mod_eq_of_lt h.2.1]
  refine congrArg _ (List.map_congr_left fun k _ => ?_)
  simp only [Function.comp, Nat.mod_add_mod]
  congr 2
  omega

/-- A buffer that is not empty gives its oldest element to a pop. -/
theorem Fifo.Ok.pop_of_contents (h : f.Ok n) {rest : List α} (hc : f.contents n = x :: rest) :
    ∃ g, f.pop n = some (x, g) ∧ g.Ok n ∧ g.contents n = rest := by
  have hne : f.isEmpty = false := by
    rw [← Bool.not_eq_true, ← h.contents_eq_nil_iff, hc]
    simp
  have hp : f.pop n = some (Memory.read f.mem f.tail, { f with tail := (f.tail + 1) % n }) := by
    simp [Fifo.pop, hne]
  have hcp := h.contents_pop hp
  rw [hc] at hcp
  obtain ⟨rfl, hrest⟩ := List.cons.inj hcp
  exact ⟨_, hp, h.pop hp, hrest.symm⟩

/-- `last` is the newest element (R73). -/
theorem Fifo.Ok.contents_last (h : f.Ok n) (hne : f.isEmpty = false) :
    (f.contents n).getLast? = some (f.last n) := by
  have hpos : 0 < f.count n := Nat.pos_of_ne_zero fun h0 => by simp [h.isEmpty_iff.2 h0] at hne
  have hslot : (f.tail + (f.count n - 1)) % n = (f.head + n - 1) % n := by
    have hc := h.count_eq
    obtain ⟨h1, h2, -, -⟩ := h
    have hlt := Nat.sub_le (f.count n) 1
    have hsum : f.tail + (f.count n - 1) < 2 * n := by split at hc <;> omega
    rw [mod_of_lt_double hsum, mod_of_lt_double (by omega)]
    split at hc <;> split <;> split <;> omega
  rw [List.getLast?_eq_getElem?, Fifo.length_contents]
  simp [Fifo.contents, Fifo.last, hslot, hpos]

theorem Fifo.Ok.clear (h : f.Ok n) : f.clear.Ok n := ⟨h.1, h.1, h.2.2⟩

omit [DecidableEq α] in
/-- `clear` leaves nothing (R74). -/
theorem Fifo.contents_clear : f.clear.contents n = [] := by
  have h0 : f.clear.count n = 0 := by simp [Fifo.count, Fifo.clear]
  simp [Fifo.contents, h0]

omit [DecidableEq α] [Inhabited α] in
@[simp] theorem Fifo.isEmpty_clear : f.clear.isEmpty = true := by simp [Fifo.isEmpty, Fifo.clear]

theorem Fifo.ok_reset (hn : 0 < n) : (Fifo.reset : Fifo α).Ok n := ⟨hn, hn, rfl, rfl⟩

omit [DecidableEq α] in
theorem Fifo.contents_reset : (Fifo.reset : Fifo α).contents n = [] := by
  have h0 : (Fifo.reset : Fifo α).count n = 0 := by simp [Fifo.count, Fifo.reset]
  simp [Fifo.contents, h0]

end

end Sys2Proof.Machine
end

