-- ==== Sys2Proof/Laws/State.lean ====
section
/-! SUPPORT. The fields of a state after each shared operation: one lemma for each field, so that no later proof unfolds a
record update. -/

namespace Sys2Proof.Machine

/-! ### emit (R13) -/

@[simp] theorem State.emit_cfg (s : State) (e : Emission) : (s.emit e).cfg = s.cfg := rfl
@[simp] theorem State.emit_motion (s : State) (e : Emission) : (s.emit e).motion = s.motion := rfl
@[simp] theorem State.emit_mq (s : State) (e : Emission) : (s.emit e).mq = s.mq := rfl
@[simp] theorem State.emit_rx (s : State) (e : Emission) : (s.emit e).rx = s.rx := rfl
@[simp] theorem State.emit_rxLines (s : State) (e : Emission) : (s.emit e).rxLines = s.rxLines := rfl
@[simp] theorem State.emit_tx (s : State) (e : Emission) : (s.emit e).tx = s.tx := rfl
@[simp] theorem State.emit_txie (s : State) (e : Emission) : (s.emit e).txie = s.txie := rfl
@[simp] theorem State.emit_ctrl (s : State) (e : Emission) : (s.emit e).ctrl = s.ctrl := rfl
@[simp] theorem State.emit_emitted (s : State) (e : Emission) : (s.emit e).emitted = e :: s.emitted := rfl
@[simp] theorem State.emit_sched (s : State) (e : Emission) : (s.emit e).sched = s.sched := rfl
@[simp] theorem State.emit_turn (s : State) (e : Emission) : (s.emit e).turn = s.turn := rfl

/-! ### goto (R13) -/

@[simp] theorem State.goto_cfg (s : State) (c : Ctl) : (s.goto c).cfg = s.cfg := rfl
@[simp] theorem State.goto_motion (s : State) (c : Ctl) : (s.goto c).motion = s.motion := rfl
@[simp] theorem State.goto_mq (s : State) (c : Ctl) : (s.goto c).mq = s.mq := rfl
@[simp] theorem State.goto_rx (s : State) (c : Ctl) : (s.goto c).rx = s.rx := rfl
@[simp] theorem State.goto_rxLines (s : State) (c : Ctl) : (s.goto c).rxLines = s.rxLines := rfl
@[simp] theorem State.goto_tx (s : State) (c : Ctl) : (s.goto c).tx = s.tx := rfl
@[simp] theorem State.goto_txie (s : State) (c : Ctl) : (s.goto c).txie = s.txie := rfl
@[simp] theorem State.goto_ctrl (s : State) (c : Ctl) : (s.goto c).ctrl = { s.ctrl with ctl := c } := rfl
@[simp] theorem State.goto_emitted (s : State) (c : Ctl) : (s.goto c).emitted = s.emitted := rfl
@[simp] theorem State.goto_sched (s : State) (c : Ctl) : (s.goto c).sched = s.sched := rfl
@[simp] theorem State.goto_turn (s : State) (c : Ctl) : (s.goto c).turn = s.turn := rfl

/-! ### the end of EXEC (R106) -/

@[simp] theorem State.answer_cfg (s : State) (r : List Byte) : (s.answer r).cfg = s.cfg := rfl
@[simp] theorem State.answer_motion (s : State) (r : List Byte) : (s.answer r).motion = s.motion := rfl
@[simp] theorem State.answer_mq (s : State) (r : List Byte) : (s.answer r).mq = s.mq := rfl
@[simp] theorem State.answer_rx (s : State) (r : List Byte) : (s.answer r).rx = s.rx := rfl
@[simp] theorem State.answer_rxLines (s : State) (r : List Byte) : (s.answer r).rxLines = s.rxLines := rfl
@[simp] theorem State.answer_tx (s : State) (r : List Byte) : (s.answer r).tx = s.tx := rfl
@[simp] theorem State.answer_txie (s : State) (r : List Byte) : (s.answer r).txie = s.txie := rfl
@[simp] theorem State.answer_ctrl (s : State) (r : List Byte) : (s.answer r).ctrl = { s.ctrl with resp := r, ridx := 0, ctl := .respond } := rfl
@[simp] theorem State.answer_emitted (s : State) (r : List Byte) : (s.answer r).emitted = s.emitted := rfl
@[simp] theorem State.answer_sched (s : State) (r : List Byte) : (s.answer r).sched = s.sched := rfl
@[simp] theorem State.answer_turn (s : State) (r : List Byte) : (s.answer r).turn = s.turn := rfl

/-! ### abort (R93) -/

@[simp] theorem abortQueue_cfg (s : State) : (abortQueue s).cfg = s.cfg := rfl
@[simp] theorem abortQueue_motion (s : State) : (abortQueue s).motion = s.motion := rfl
@[simp] theorem abortQueue_mq (s : State) : (abortQueue s).mq = s.mq.clear := rfl
@[simp] theorem abortQueue_rx (s : State) : (abortQueue s).rx = s.rx := rfl
@[simp] theorem abortQueue_rxLines (s : State) : (abortQueue s).rxLines = s.rxLines := rfl
@[simp] theorem abortQueue_tx (s : State) : (abortQueue s).tx = s.tx := rfl
@[simp] theorem abortQueue_txie (s : State) : (abortQueue s).txie = s.txie := rfl
@[simp] theorem abortQueue_ctrl (s : State) : (abortQueue s).ctrl = s.ctrl := rfl
@[simp] theorem abortQueue_emitted (s : State) : (abortQueue s).emitted = s.emitted := rfl
@[simp] theorem abortQueue_sched (s : State) : (abortQueue s).sched = s.sched := rfl
@[simp] theorem abortQueue_turn (s : State) : (abortQueue s).turn = s.turn := rfl

/-! ### StepTick (R99) -/

@[simp] theorem stepTick_cfg (s : State) : (stepTick s).cfg = s.cfg := rfl
@[simp] theorem stepTick_motion (s : State) : (stepTick s).motion = s.motion.stepped.settle := rfl
@[simp] theorem stepTick_mq (s : State) : (stepTick s).mq = s.mq := rfl
@[simp] theorem stepTick_rx (s : State) : (stepTick s).rx = s.rx := rfl
@[simp] theorem stepTick_rxLines (s : State) : (stepTick s).rxLines = s.rxLines := rfl
@[simp] theorem stepTick_tx (s : State) : (stepTick s).tx = s.tx := rfl
@[simp] theorem stepTick_txie (s : State) : (stepTick s).txie = s.txie := rfl
@[simp] theorem stepTick_ctrl (s : State) : (stepTick s).ctrl = s.ctrl := rfl
@[simp] theorem stepTick_emitted (s : State) : (stepTick s).emitted = emitPulses (tickPulses s.cfg.physical s.motion) s.emitted := rfl
@[simp] theorem stepTick_sched (s : State) : (stepTick s).sched = s.sched := rfl
@[simp] theorem stepTick_turn (s : State) : (stepTick s).turn = s.turn := rfl

/-! ### power-on reset (R137) -/

@[simp] theorem State.powerCycle_cfg (s : State) : (s.powerCycle).cfg = s.cfg := rfl
@[simp] theorem State.powerCycle_motion (s : State) : (s.powerCycle).motion = Motion.reset := rfl
@[simp] theorem State.powerCycle_mq (s : State) : (s.powerCycle).mq = Fifo.reset := rfl
@[simp] theorem State.powerCycle_rx (s : State) : (s.powerCycle).rx = Fifo.reset := rfl
@[simp] theorem State.powerCycle_rxLines (s : State) : (s.powerCycle).rxLines = 0 := rfl
@[simp] theorem State.powerCycle_tx (s : State) : (s.powerCycle).tx = Fifo.reset := rfl
@[simp] theorem State.powerCycle_txie (s : State) : (s.powerCycle).txie = false := rfl
@[simp] theorem State.powerCycle_ctrl (s : State) : (s.powerCycle).ctrl = Controller.reset := rfl
@[simp] theorem State.powerCycle_emitted (s : State) : (s.powerCycle).emitted = s.emitted := rfl
@[simp] theorem State.powerCycle_sched (s : State) : (s.powerCycle).sched = s.sched := rfl
@[simp] theorem State.powerCycle_turn (s : State) : (s.powerCycle).turn = s.turn := rfl

/-! ### the event taken off -/

@[simp] theorem State.advance_cfg (s : State) : s.advance.cfg = s.cfg := by unfold State.advance; split <;> rfl
@[simp] theorem State.advance_motion (s : State) : s.advance.motion = s.motion := by unfold State.advance; split <;> rfl
@[simp] theorem State.advance_mq (s : State) : s.advance.mq = s.mq := by unfold State.advance; split <;> rfl
@[simp] theorem State.advance_rx (s : State) : s.advance.rx = s.rx := by unfold State.advance; split <;> rfl
@[simp] theorem State.advance_rxLines (s : State) : s.advance.rxLines = s.rxLines := by unfold State.advance; split <;> rfl
@[simp] theorem State.advance_tx (s : State) : s.advance.tx = s.tx := by unfold State.advance; split <;> rfl
@[simp] theorem State.advance_txie (s : State) : s.advance.txie = s.txie := by unfold State.advance; split <;> rfl
@[simp] theorem State.advance_ctrl (s : State) : s.advance.ctrl = s.ctrl := by unfold State.advance; split <;> rfl
@[simp] theorem State.advance_emitted (s : State) : s.advance.emitted = s.emitted := by unfold State.advance; split <;> rfl

theorem State.nextEvent_cons {s : State} {e : Event} {es : List Event} (h : s.sched = e :: es) : s.nextEvent = e := by
  simp [State.nextEvent, h]

theorem State.advance_cons {s : State} {e : Event} {es : List Event} (h : s.sched = e :: es) :
    s.advance = { s with sched := es } := by
  simp [State.advance, h]

/-! ### tuples (R12) -/

@[simp] theorem Axes.get_ofFn {α : Type} (f : Axis → α) (a : Axis) : (Axes.ofFn f).get a = f a := by cases a <;> rfl

/-- Tuples are equal when every axis is (R12). -/
theorem Axes.ext_get {α : Type} {p q : Axes α} (h : ∀ a, p.get a = q.get a) : p = q := by
  obtain ⟨x, y, t, f⟩ := p
  obtain ⟨x', y', t', f'⟩ := q
  have h0 : x = x' := h .x
  have h1 : y = y' := h .y
  have h2 : t = t' := h .theta
  have h3 : f = f' := h .phi
  rw [h0, h1, h2, h3]

/-! ### motion (R97 to R100) -/

@[simp] theorem Motion.stepped_target (m : Motion) : m.stepped.target = m.target := rfl
@[simp] theorem Motion.stepped_dir (m : Motion) : m.stepped.dir = m.dir := rfl
@[simp] theorem Motion.stepped_moving (m : Motion) : m.stepped.moving = m.moving := rfl
@[simp] theorem Motion.stepped_timerArmed (m : Motion) : m.stepped.timerArmed = m.timerArmed := rfl
@[simp] theorem Motion.stepped_current (m : Motion) (a : Axis) : m.stepped.current.get a = stepAxis m a :=
  Axes.get_ofFn _ a

@[simp] theorem Motion.settle_current (m : Motion) : m.settle.current = m.current := by unfold Motion.settle; split <;> rfl
@[simp] theorem Motion.settle_target (m : Motion) : m.settle.target = m.target := by unfold Motion.settle; split <;> rfl
@[simp] theorem Motion.settle_dir (m : Motion) : m.settle.dir = m.dir := by unfold Motion.settle; split <;> rfl

@[simp] theorem Motion.settle_moving (m : Motion) : m.settle.moving = (m.moving && m.current != m.target) := by
  unfold Motion.settle
  split <;> simp_all [bne]

@[simp] theorem Motion.settle_timerArmed (m : Motion) :
    m.settle.timerArmed = (m.timerArmed || m.current != m.target) := by
  unfold Motion.settle
  split <;> simp_all [bne]

@[simp] theorem Motion.begin_current (m : Motion) (w : Pos4) : (m.begin w).current = m.current := rfl
@[simp] theorem Motion.begin_target (m : Motion) (w : Pos4) : (m.begin w).target = w := rfl
@[simp] theorem Motion.begin_dir (m : Motion) (w : Pos4) : (m.begin w).dir = directions m.current w := rfl
@[simp] theorem Motion.begin_moving (m : Motion) (w : Pos4) : (m.begin w).moving = true := rfl
@[simp] theorem Motion.begin_timerArmed (m : Motion) (w : Pos4) : (m.begin w).timerArmed = m.timerArmed := rfl

end Sys2Proof.Machine
end

