-- ==== Sys2Proof/Laws/Ops.lean ====
section
/-! SUPPORT. For each shared operation of the transport, the movement queue and the controller, one lemma that says once
everything it can do. -/

namespace Sys2Proof.Machine

variable {s t : State} {b : Byte} {p : Pos4}

/-! ### readByte and writeByte (R80, R81) -/

theorem State.readByte_eq_none_iff : s.readByte = none ↔ s.rx.isEmpty = true := by
  rw [← Fifo.pop_eq_none_iff (n := s.cfg.nRx)]
  unfold State.readByte
  split <;> simp_all

theorem State.readByte_eq_some (h : s.readByte = some (b, t)) :
    ∃ rx, s.rx.pop s.cfg.nRx = some (b, rx) ∧
      t = { s with rx := rx, rxLines := if b = terminator then lineCountDown s.cfg s.rxLines else s.rxLines } := by
  unfold State.readByte at h
  split at h
  · cases h
  · next c rx hp =>
    cases h
    exact ⟨rx, hp, rfl⟩

theorem State.readByte_of_pop {rx : Fifo Byte} (h : s.rx.pop s.cfg.nRx = some (b, rx)) :
    s.readByte =
      some (b, { s with rx := rx, rxLines := if b = terminator then lineCountDown s.cfg s.rxLines else s.rxLines }) := by
  simp [State.readByte, h]

theorem State.writeByte_eq_none_iff : s.writeByte b = none ↔ s.tx.isFull s.cfg.nTx = true := by
  rw [← Fifo.push_eq_none_iff (x := b)]
  unfold State.writeByte
  split <;> simp_all

theorem State.writeByte_eq_some (h : s.writeByte b = some t) :
    ∃ tx, s.tx.push s.cfg.nTx b = some tx ∧ t = { s with tx := tx, txie := true } := by
  unfold State.writeByte at h
  split at h
  · cases h
  · next tx hp =>
    cases h
    exact ⟨tx, hp, rfl⟩

theorem State.writeByte_of_push {tx : Fifo Byte} (h : s.tx.push s.cfg.nTx b = some tx) :
    s.writeByte b = some { s with tx := tx, txie := true } := by
  simp [State.writeByte, h]

/-! ### The handlers (R77, R78, R101) -/

theorem rxHandler_of_full (h : s.rx.isFull s.cfg.nRx = true) : rxHandler b s = s := by
  simp [rxHandler, Fifo.push_eq_none_iff.2 h]

theorem rxHandler_cases (b : Byte) (s : State) :
    (s.rx.isFull s.cfg.nRx = true ∧ rxHandler b s = s) ∨
      ∃ rx, s.rx.push s.cfg.nRx b = some rx ∧
        rxHandler b s =
          { s with rx := rx, rxLines := if b = terminator then lineCountUp s.cfg s.rxLines else s.rxLines } := by
  unfold rxHandler
  split
  · exact .inl ⟨Fifo.push_eq_none_iff.1 ‹_›, rfl⟩
  · exact .inr ⟨_, ‹_›, rfl⟩

theorem txHandler_cases (s : State) :
    (s.txie = false ∧ txHandler s = s) ∨
      (s.txie = true ∧ s.tx.isEmpty = true ∧ txHandler s = { s with txie := false }) ∨
        ∃ b tx, s.txie = true ∧ s.tx.pop s.cfg.nTx = some (b, tx) ∧ txHandler s = { s with tx := tx }.emit (.tx b) := by
  unfold txHandler
  split
  · split
    · exact .inr (.inr ⟨_, _, ‹_›, ‹_›, rfl⟩)
    · exact .inr (.inl ⟨‹_›, Fifo.pop_eq_none_iff.1 ‹_›, rfl⟩)
  · next h => exact .inl ⟨by simpa using h, rfl⟩

theorem timerHandler_cases (s : State) :
    (s.motion.timerArmed = false ∧ timerHandler s = s) ∨
      (s.motion.timerArmed = true ∧ s.motion.moving = false ∧
        timerHandler s = { s with motion := { s.motion with timerArmed := false } }) ∨
      (s.motion.timerArmed = true ∧ s.motion.moving = true ∧
        timerHandler s = stepTick { s with motion := { s.motion with timerArmed := false } }) := by
  unfold timerHandler
  split
  · next h =>
    dsimp only
    split
    · next hm => exact .inr (.inr ⟨h, hm, rfl⟩)
    · next hm => exact .inr (.inl ⟨h, by simpa using hm, rfl⟩)
  · next h => exact .inl ⟨by simpa using h, rfl⟩

/-! ### The movement queue (R90 to R92, R100) -/

theorem enqueueAbsolute_cases (s : State) (p : Pos4) :
    (s.mq.isFull s.cfg.nMq = true ∧ enqueueAbsolute s p = (false, s)) ∨
      ∃ mq, s.mq.push s.cfg.nMq p = some mq ∧ enqueueAbsolute s p = (true, { s with mq := mq }) := by
  unfold enqueueAbsolute
  split
  · exact .inr ⟨_, ‹_›, rfl⟩
  · exact .inl ⟨Fifo.push_eq_none_iff.1 ‹_›, rfl⟩

theorem idleCheck_cases (s : State) :
    ((s.motion.moving = true ∨ s.mq.isEmpty = true) ∧ idleCheck s = s) ∨
      ∃ w mq, s.motion.moving = false ∧ s.mq.pop s.cfg.nMq = some (w, mq) ∧
        idleCheck s = stepTick { s with mq := mq, motion := s.motion.begin w } := by
  unfold idleCheck
  split
  · exact .inl ⟨.inl ‹_›, rfl⟩
  · next h =>
    split
    · exact .inl ⟨.inr (Fifo.pop_eq_none_iff.1 ‹_›), rfl⟩
    · exact .inr ⟨_, _, by simpa using h, ‹_›, rfl⟩

/-! ### The line counter (R27) -/

theorem lineCountUp_of_lt {c : Config} {k : Nat} (h : k + 1 < c.nRx) : lineCountUp c k = k + 1 := Nat.mod_eq_of_lt h

theorem lineCountDown_of_pos {c : Config} {k : Nat} (h0 : 0 < k) (h : k ≤ c.nRx) : lineCountDown c k = k - 1 := by
  have he : k + c.nRx - 1 = (k - 1) + c.nRx := by omega
  rw [lineCountDown, he, Nat.add_mod_right, Nat.mod_eq_of_lt (by omega)]

/-! ### The position arithmetic (R88) -/

/-- `satAdd` keeps the exact sum when it is in range, and the first operand when it is not. -/
theorem satAdd_cases (c : Config) (x y : Word) :
    (c.posMin ≤ x.toInt + y.toInt ∧ x.toInt + y.toInt ≤ c.posMax ∧
        satAdd c x y = BitVec.ofInt 16 (x.toInt + y.toInt)) ∨
      (¬ (c.posMin ≤ x.toInt + y.toInt ∧ x.toInt + y.toInt ≤ c.posMax) ∧ satAdd c x y = x) := by
  simp only [satAdd]
  split
  · next h => exact .inl ⟨h.1, h.2, rfl⟩
  · next h => exact .inr ⟨h, rfl⟩

/-! ### One tick (R99) -/

/-- What a tick does to one axis. -/
theorem stepAxis_cases (m : Motion) (a : Axis) :
    (m.current.get a = m.target.get a ∧ stepAxis m a = m.current.get a) ∨
      (m.current.get a ≠ m.target.get a ∧ m.dir.get a = true ∧ stepAxis m a = m.current.get a + 1) ∨
      (m.current.get a ≠ m.target.get a ∧ m.dir.get a = false ∧ stepAxis m a = m.current.get a - 1) := by
  unfold stepAxis Motion.differs
  by_cases he : m.current.get a = m.target.get a
  · simp [he]
  · cases hd : m.dir.get a <;> simp [he]

theorem emitPulses_cases (p : Axes (Option Bool)) (out : List Emission) :
    ((∀ a, p.get a = none) ∧ emitPulses p out = out) ∨ emitPulses p out = .pulses p :: out := by
  unfold emitPulses
  split
  · next h => exact .inl ⟨fun a => by subst h; cases a <;> rfl, rfl⟩
  · exact .inr rfl

end Sys2Proof.Machine
end

