-- ==== Sys2Proof/Laws/Step.lean ====
section
/-! SUPPORT. What a step can do: one inversion lemma for the step and one for each transition that may read, write or stop. -/

namespace Sys2Proof.Machine

variable {s t : State} {b : Byte}

/-- A step is the next event run on the state with that event taken off. -/
theorem step_of_event {e : Event} (h : s.nextEvent = e) : step s = runEvent e s.advance := by rw [step, h]

/-- Everything a step that answers a next state can be. -/
theorem step_cases (h : step s = .next t) :
    (s.nextEvent = .controller ∧ controllerTurn s.advance = .next t) ∨
      (∃ b, s.nextEvent = .rxByte b ∧ t = rxHandler b s.advance) ∨
      (s.nextEvent = .txReady ∧ t = txHandler s.advance) ∨
      (s.nextEvent = .timerExpiry ∧ t = timerHandler s.advance) ∨
      (s.nextEvent = .powerOn ∧ t = s.advance.powerCycle) := by
  unfold step runEvent at h
  split at h
  · exact .inl ⟨‹_›, h⟩
  · cases h
    exact .inr (.inl ⟨_, ‹_›, rfl⟩)
  · cases h
    exact .inr (.inr (.inl ⟨‹_›, rfl⟩))
  · cases h
    exact .inr (.inr (.inr (.inl ⟨‹_›, rfl⟩)))
  · cases h
    exact .inr (.inr (.inr (.inr ⟨‹_›, rfl⟩)))

/-- READ_OP holds, or reads the opcode byte (R104). -/
theorem readOpTransition_cases (s : State) :
    (s.rx.isEmpty = true ∧ readOpTransition s = .next s) ∨
      ∃ b u, s.readByte = some (b, u) ∧
        readOpTransition s =
          .next ({ u with ctrl := { u.ctrl with op := b, pcount := 0 } }.goto
            (if b = terminator then .spin else afterOpcode b)) := by
  unfold readOpTransition
  split
  · exact .inl ⟨State.readByte_eq_none_iff.1 ‹_›, rfl⟩
  · next b u h =>
    refine .inr ⟨b, u, h, ?_⟩
    dsimp only
    split
    · next hb => subst hb; rfl
    · rfl

/-- PAYLOAD stops on a `pcount` past 11, holds, or reads one byte (R105). -/
theorem payloadTransition_cases (s : State) :
    (12 ≤ s.ctrl.pcount ∧ payloadTransition s = .fault .payloadIndex) ∨
      (s.ctrl.pcount < 12 ∧ s.rx.isEmpty = true ∧ payloadTransition s = .next s) ∨
      ∃ b u, s.ctrl.pcount < 12 ∧ s.readByte = some (b, u) ∧
        payloadTransition s =
          .next { u with ctrl := { s.ctrl with
            pbuf := s.ctrl.pbuf.setIfInBounds s.ctrl.pcount b
            pcount := s.ctrl.pcount + 1
            ctl := if s.ctrl.pcount + 1 = 12 then .exec else s.ctrl.ctl } } := by
  unfold payloadTransition
  split
  · next hp =>
    split
    · exact .inr (.inl ⟨hp, State.readByte_eq_none_iff.1 ‹_›, rfl⟩)
    · next b u h =>
      refine .inr (.inr ⟨b, u, hp, h, ?_⟩)
      obtain ⟨rx, -, rfl⟩ := State.readByte_eq_some h
      dsimp only
      split <;> rfl
  · exact .inl ⟨by omega, rfl⟩

/-- RESPOND is over, stops on a `ridx` past the response, holds, or writes one byte (R107). -/
theorem respondTransition_cases (s : State) :
    (s.ctrl.ridx = s.ctrl.resp.length ∧ respondTransition s = .next (s.goto .discard)) ∨
      (s.ctrl.resp.length < s.ctrl.ridx ∧ respondTransition s = .fault .responseIndex) ∨
      (s.ctrl.ridx < s.ctrl.resp.length ∧ s.tx.isFull s.cfg.nTx = true ∧ respondTransition s = .next s) ∨
      ∃ b u, s.ctrl.resp[s.ctrl.ridx]? = some b ∧ s.writeByte b = some u ∧
        respondTransition s = .next { u with ctrl := { s.ctrl with ridx := s.ctrl.ridx + 1 } } := by
  unfold respondTransition
  split
  · exact .inl ⟨‹_›, rfl⟩
  · next hne =>
    split
    · next hnone =>
      rw [List.getElem?_eq_none_iff] at hnone
      exact .inr (.inl ⟨by omega, rfl⟩)
    · next b hb =>
      have hlt : s.ctrl.ridx < s.ctrl.resp.length := (List.getElem?_eq_some_iff.1 hb).1
      split
      · exact .inr (.inr (.inl ⟨hlt, State.writeByte_eq_none_iff.1 ‹_›, rfl⟩))
      · next u hu =>
        refine .inr (.inr (.inr ⟨b, u, hb, hu, ?_⟩))
        obtain ⟨tx, -, rfl⟩ := State.writeByte_eq_some hu
        rfl

/-- DISCARD holds, or reads one byte (R108). -/
theorem discardTransition_cases (s : State) :
    (s.rx.isEmpty = true ∧ discardTransition s = s) ∨
      ∃ b u, s.readByte = some (b, u) ∧ discardTransition s = if b = terminator then u.goto .spin else u := by
  unfold discardTransition
  split
  · exact .inl ⟨State.readByte_eq_none_iff.1 ‹_›, rfl⟩
  · exact .inr ⟨_, _, ‹_›, rfl⟩

/-- Every command ends in a next state in which it stands in RESPOND with its response unwritten, or, for the empty frame,
in SPIN; it writes no other part of the state than the movement queue, the controller and the emissions (R106, R110 to
R119). -/
theorem exec_next (i : Instr) (s : State) :
    ∃ mq out k, exec i s = .next { s with mq := mq, emitted := out, ctrl := k } := by
  cases i with
  | moveAbs p =>
    rcases enqueueAbsolute_cases s p with ⟨-, h⟩ | ⟨mq, -, h⟩ <;>
      exact ⟨_, _, _, by simp only [exec, execMoveAbs, h]; rfl⟩
  | moveRel d =>
    rcases enqueueAbsolute_cases s (satAdd4 s.cfg s.endgoal d) with ⟨-, h⟩ | ⟨mq, -, h⟩ <;>
      exact ⟨_, _, _, by simp only [exec, execMoveRel, enqueueRelative, h]; rfl⟩
  | getPos => exact ⟨_, _, _, rfl⟩
  | homeX => exact ⟨_, _, _, rfl⟩
  | homeY => exact ⟨_, _, _, rfl⟩
  | start => exact ⟨_, _, _, rfl⟩
  | stop => exact ⟨_, _, _, rfl⟩
  | abort => exact ⟨_, _, _, rfl⟩
  | getTarget => exact ⟨_, _, _, rfl⟩
  | emptyFrame => exact ⟨_, _, _, rfl⟩
  | unassigned op => exact ⟨_, _, _, rfl⟩

end Sys2Proof.Machine
end

