-- ==== Sys2Proof/Laws/PerInstr.lean ====
section
/-! SUPPORT. Facts of every command as syntax: the shape of its frame (30_encoding.md R55, R56, R64). -/

namespace Sys2Proof.Laws.Frame

open Sys2Proof

/-- The length of a command's frame in bytes (R56, R64). -/
def frameLength : Instr → Nat
  | .moveAbs _ => 14
  | .moveRel _ => 14
  | .getPos => 2
  | .homeX => 2
  | .homeY => 2
  | .start => 2
  | .stop => 2
  | .abort => 2
  | .getTarget => 2
  | .emptyFrame => 1
  | .unassigned _ => 2

/-- In either CODEC_ORDER, a command's frame has the length of its format and ends with the terminator. -/
def Statement (i : Instr) : Prop :=
  ∀ o : CodecOrder, (encode o i).length = frameLength i ∧ (encode o i).getLast? = some terminator

theorem length_encodePos (o : CodecOrder) (v : Word) : (encodePos o v).length = 3 := by cases o <;> rfl

theorem frameF12_shape (o : CodecOrder) (op : Byte) (p : Pos4) :
    (frameF12 o op p).length = 14 ∧ (frameF12 o op p).getLast? = some terminator := by
  constructor
  · simp [frameF12, encode4, length_encodePos]
  · rw [frameF12, List.getLast?_concat]

theorem moveAbs (p : Pos4) : Statement (.moveAbs p) := fun o => frameF12_shape o _ p
theorem moveRel (d : Pos4) : Statement (.moveRel d) := fun o => frameF12_shape o _ d
theorem getPos : Statement .getPos := fun _ => ⟨rfl, rfl⟩
theorem homeX : Statement .homeX := fun _ => ⟨rfl, rfl⟩
theorem homeY : Statement .homeY := fun _ => ⟨rfl, rfl⟩
theorem start : Statement .start := fun _ => ⟨rfl, rfl⟩
theorem stop : Statement .stop := fun _ => ⟨rfl, rfl⟩
theorem abort : Statement .abort := fun _ => ⟨rfl, rfl⟩
theorem getTarget : Statement .getTarget := fun _ => ⟨rfl, rfl⟩
theorem emptyFrame : Statement .emptyFrame := fun _ => ⟨rfl, rfl⟩
theorem unassigned (op : Byte) : Statement (.unassigned op) := fun _ => ⟨rfl, rfl⟩

end Sys2Proof.Laws.Frame
end

