-- ==== Sys2Proof/Laws/Run.lean ====
section
/-! SUPPORT. Runs of several steps, what the controller's turn can change, and small facts about a tick that the claims about
whole moves and whole commands rest on. -/

namespace Sys2Proof.Machine

variable {s t u : State} {b : Byte}

/-! ### Runs -/

theorem runSteps_succ (k : Nat) (h : step s = .next t) : runSteps (k + 1) s = runSteps k t := by
  have hc : Sys2Proof.core.step s = .next t := h
  simp only [runSteps, Host.Core.run, hc]
  rfl

/-- A run of `a` steps followed by `b` steps. -/
theorem runSteps_add (a b : Nat) (h : runSteps a s = .next t) : runSteps (a + b) s = runSteps b t := by
  induction a generalizing s with
  | zero =>
    cases h
    rw [Nat.zero_add]
  | succ a ih =>
    cases hst : step s with
    | next v =>
      rw [runSteps_succ a hst] at h
      rw [Nat.add_right_comm, runSteps_succ _ hst]
      exact ih h
    | fault f =>
      have hc : Sys2Proof.core.step s = .fault f := hst
      simp [runSteps, Host.Core.run, hc] at h
    | refused f =>
      have hc : Sys2Proof.core.step s = .refused f := hst
      simp [runSteps, Host.Core.run, hc] at h

/-- A run to be found is found from the state that its first `a` steps reach. -/
theorem exists_runSteps_add {P : State → Prop} {a b : Nat} (h : runSteps a s = .next t)
    (h2 : ∃ v, runSteps b t = .next v ∧ P v) : ∃ v, runSteps (a + b) s = .next v ∧ P v := by
  rw [runSteps_add a b h]
  exact h2

/-- A state that a run gives is reached. -/
theorem Reaches.of_runSteps {r : State} (hr : Reaches r s) (k : Nat) (h : runSteps k s = .next t) : Reaches r t := by
  induction k generalizing s with
  | zero =>
    cases h
    exact hr
  | succ k ih =>
    cases hst : step s with
    | next u =>
      rw [runSteps_succ k hst] at h
      exact ih (.tail hr hst) h
    | fault f =>
      have hc : Sys2Proof.core.step s = .fault f := hst
      simp [runSteps, Host.Core.run, hc] at h
    | refused f =>
      have hc : Sys2Proof.core.step s = .refused f := hst
      simp [runSteps, Host.Core.run, hc] at h

/-! ### Taking an event off changes nothing of the block -/

theorem State.Shaped.advance (h : s.Shaped) : s.advance.Shaped := by simpa [State.Shaped] using h

theorem State.LinesCounted.advance (h : s.LinesCounted) : s.advance.LinesCounted := by
  simpa [State.LinesCounted] using h

theorem State.Inv.advance (h : s.Inv) : s.advance.Inv :=
  ⟨h.shaped.advance, by simpa using h.timer, by simpa using h.idle, by simpa using h.direction, by simpa using h.goesOn,
    h.lines.advance, by simpa [State.TxArmed] using h.txArmed, by simpa using h.controller, by simpa using h.lineToRead⟩

/-! ### readByte and writeByte: what they leave alone (R80, R81) -/

theorem State.readByte_frame (h : s.readByte = some (b, t)) :
    t.cfg = s.cfg ∧ t.motion = s.motion ∧ t.mq = s.mq ∧ t.tx = s.tx ∧ t.txie = s.txie ∧ t.ctrl = s.ctrl ∧
      t.emitted = s.emitted ∧ t.sched = s.sched ∧ t.turn = s.turn ∧ t.rx.head = s.rx.head ∧ t.rx.mem = s.rx.mem := by
  obtain ⟨rx, hp, rfl⟩ := State.readByte_eq_some h
  obtain ⟨-, -, rfl⟩ := Fifo.pop_eq_some hp
  simp

theorem State.writeByte_frame (h : s.writeByte b = some t) :
    t.cfg = s.cfg ∧ t.motion = s.motion ∧ t.mq = s.mq ∧ t.rx = s.rx ∧ t.rxLines = s.rxLines ∧ t.ctrl = s.ctrl ∧
      t.emitted = s.emitted ∧ t.sched = s.sched ∧ t.turn = s.turn ∧ t.tx.tail = s.tx.tail := by
  obtain ⟨tx, hp, rfl⟩ := State.writeByte_eq_some h
  simp [Fifo.push_eq_some hp]

/-! ### The controller's turn (R29) -/

/-- A command changes the emissions only by a homing request. -/
theorem exec_emitted (i : Instr) (h : exec i s = .next t) :
    t.emitted = s.emitted ∨ t.emitted = .home .x :: s.emitted ∨ t.emitted = .home .y :: s.emitted := by
  have henq : ∀ p, (enqueueAbsolute s p).2.emitted = s.emitted := fun p => by
    rcases enqueueAbsolute_cases s p with ⟨-, h⟩ | ⟨mq, -, h⟩ <;> rw [h]
  cases i <;> cases h <;> simp [enqueueRelative, henq]

/-- Whatever the controller does in a turn that ends in a next state: it writes neither `rx_head` nor `tx_tail`, and it
changes the motion and the step requests only in SPIN. -/
theorem controllerTurn_cases (h : controllerTurn s = .next t) :
    t.cfg = s.cfg ∧ t.sched = s.sched ∧ t.turn = s.turn ∧ t.rx.head = s.rx.head ∧ t.tx.tail = s.tx.tail ∧
      ((s.ctrl.ctl = .spin ∧ t = (idleCheck s).goto .poll) ∨
        (t.motion = s.motion ∧
          (t.emitted = s.emitted ∨ t.emitted = .home .x :: s.emitted ∨ t.emitted = .home .y :: s.emitted))) := by
  unfold controllerTurn at h
  split at h
  · cases h
    unfold pollTransition
    split <;> simp
  · rcases readOpTransition_cases s with ⟨-, e⟩ | ⟨b, u, hr, e⟩
    · rw [e] at h
      cases h
      simp
    · rw [e] at h
      cases h
      simp [State.readByte_frame hr]
  · rcases payloadTransition_cases s with ⟨-, e⟩ | ⟨-, -, e⟩ | ⟨b, u, -, hr, e⟩
    · rw [e] at h
      cases h
    · rw [e] at h
      cases h
      simp
    · rw [e] at h
      cases h
      simp [State.readByte_frame hr]
  · unfold execTransition at h
    split at h
    · cases h
    · have hem := exec_emitted _ h
      obtain ⟨mq, out, k, e⟩ := exec_next (decodeOp s.cfg.codecOrder s.ctrl.op s.ctrl.pbuf) s
      rw [e] at h
      cases h
      exact ⟨rfl, rfl, rfl, rfl, rfl, .inr ⟨rfl, hem⟩⟩
  · rcases respondTransition_cases s with ⟨-, e⟩ | ⟨-, e⟩ | ⟨-, -, e⟩ | ⟨b, u, -, hw, e⟩
    · rw [e] at h
      cases h
      simp
    · rw [e] at h
      cases h
    · rw [e] at h
      cases h
      simp
    · rw [e] at h
      cases h
      simp [State.writeByte_frame hw]
  · cases h
    rcases discardTransition_cases s with ⟨-, e⟩ | ⟨b, u, hr, e⟩
    · rw [e]
      simp
    · rw [e]
      split <;> simp [State.readByte_frame hr]
  · next hc =>
    cases h
    unfold spinTransition
    rcases idleCheck_cases s with ⟨-, e⟩ | ⟨w, mq, -, -, e⟩ <;> simp [e, hc]

/-! ### A tick (R97 to R99) -/

@[simp] theorem directions_get (c w : Pos4) (a : Axis) :
    (directions c w).get a = decide ((c.get a).toInt < (w.get a).toInt) := by
  simp [directions, BitVec.slt]

/-- A position below some other position has a successor, and the sum does not wrap. -/
theorem toInt_add_one_of_lt {x y : Word} (h : x.toInt < y.toInt) : (x + 1).toInt = x.toInt + 1 := by
  have h1 := BitVec.toInt_lt (x := y)
  have h2 := BitVec.le_toInt (x := x)
  have h3 : (1 : Word).toInt = 1 := by decide
  rw [BitVec.toInt_add, h3]
  apply Int.bmod_eq_of_le <;> simp at * <;> omega

/-- A position above some other position has a predecessor, and the difference does not wrap. -/
theorem toInt_sub_one_of_lt {x y : Word} (h : y.toInt < x.toInt) : (x - 1).toInt = x.toInt - 1 := by
  have h1 := BitVec.toInt_lt (x := x)
  have h2 := BitVec.le_toInt (x := y)
  have h3 : (1 : Word).toInt = 1 := by decide
  rw [BitVec.toInt_sub, h3]
  apply Int.bmod_eq_of_le <;> simp at * <;> omega

/-- With the direction agreeing with the way to the target, a tick takes an axis one unit toward it. -/
theorem stepAxis_toInt (m : Motion) (a : Axis)
    (hd : m.current.get a ≠ m.target.get a →
      (m.dir.get a = true ↔ (m.current.get a).toInt < (m.target.get a).toInt)) :
    (stepAxis m a).toInt =
      (m.current.get a).toInt + ((m.target.get a).toInt - (m.current.get a).toInt).sign := by
  rcases stepAxis_cases m a with ⟨h, e⟩ | ⟨h, d, e⟩ | ⟨h, d, e⟩
  · rw [e, h]
    simp
  · have hlt := (hd h).1 d
    rw [e, toInt_add_one_of_lt hlt, Int.sign_eq_one_of_pos (by omega)]
  · have h1 : ¬ (m.current.get a).toInt < (m.target.get a).toInt := fun hlt => by
      have := (hd h).2 hlt
      simp [d] at this
    have h2 : (m.current.get a).toInt ≠ (m.target.get a).toInt := fun heq => h (BitVec.eq_of_toInt_eq heq)
    rw [e, toInt_sub_one_of_lt (y := m.target.get a) (by omega), Int.sign_eq_neg_one_of_neg (by omega)]
    rfl

/-- The set of step requests is recorded when it is not empty. -/
theorem emitPulses_eq (p : Axes (Option Bool)) (out : List Emission) :
    emitPulses p out =
      if ∀ a ∈ [Axis.x, .y, .theta, .phi], p.get a = none then out else .pulses p :: out := by
  unfold emitPulses
  obtain ⟨x, y, t, f⟩ := p
  simp [Axes.get]

/-! ### The endgoal (R90) -/

theorem State.Shaped.endgoal_eq (h : s.Shaped) :
    s.endgoal = (s.mq.contents s.cfg.nMq).getLast?.getD s.motion.target := by
  unfold State.endgoal
  split
  · next he =>
    rw [h.2.2.2.contents_eq_nil_iff.2 he]
    rfl
  · next he =>
    rw [h.2.2.2.contents_last (by simpa using he)]
    rfl

end Sys2Proof.Machine
end

