-- ==== Sys2Proof/Tests/Slice0.lean ====
section
/-! SUPPORT. Tests with expected results from spec/95_test_vectors.md or written out by hand from the cited rules, and for each
obligation with hypotheses a witness that meets them. -/

namespace Sys2Proof.Tests

open Sys2Proof.Machine

/-! ### Small states -/

/-- A circular buffer of capacity `n` that was empty and then got `items` pushed. -/
def filled {α : Type} [DecidableEq α] [Inhabited α] (n : Nat) (items : List α) : Fifo α :=
  items.foldl (fun f x => (f.push n x).getD f) Fifo.reset

/-- Reset, with the controller in `c`, the bytes `rx` waiting (with their counted lines), and `es` to come. -/
def stateAt (c : Ctl) (rx : List Byte) (es : List Event) : State :=
  { State.reset with
    rx := filled 64 rx, rxLines := rx.count terminator
    ctrl := { Controller.reset with ctl := c }
    sched := es }

/-- A state with waypoints queued. -/
def queueing (ws : List Pos4) (s : State) : State := { s with mq := filled 4 ws }

/-- A state with bytes waiting in the TX FIFO, its handler enabled. -/
def sending (bs : List Byte) (s : State) : State := { s with tx := filled 64 bs, txie := true }

/-- V-STEP-4's start: a move from (1,0,0,0) to (5,0,0,0) in flight. -/
def inFlight : Motion :=
  { current := ⟨1, 0, 0, 0⟩, target := ⟨5, 0, 0, 0⟩, dir := ⟨true, false, false, false⟩, moving := true
    timerArmed := true }

/-- The RX FIFO of N_RX = 16 with `bs` in it. -/
def smallRx (bs : List Byte) (s : State) : State :=
  { s with cfg := { Config.standard with nRx := 16 }, rx := filled 16 bs, rxLines := bs.count terminator }

/-! ### WellFormed: a smoke test (R64) -/

theorem test_wf_accepts_every_constructor :
    [Instr.moveAbs ⟨-1, 0x0D0D, 0x7FFF, -0x8000⟩, .moveRel ⟨1, 2, 3, 4⟩, .getPos, .homeX, .homeY, .start, .stop, .abort,
      .getTarget, .emptyFrame, .unassigned 0x00, .unassigned 0x09, .unassigned 0x0C, .unassigned 0x0E, .unassigned 0x10,
      .unassigned 0xFF].all Instr.wf = true := by decide

/-- The one check: a listed opcode, or 0x0D, is no unassigned one. -/
theorem test_wf_refuses_listed_opcodes :
    [0x01, 0x02, 0x03, 0x04, 0x05, 0x06, 0x07, 0x08, 0x0D, 0x0F].all (fun op => !(Instr.unassigned op).wf) = true := by
  decide

/-! ### Decoding, from frames written out from R56, R58, R61, R64 -/

/-- P4: 3329 and 1025 in non-canonical codec frames; MOVE_ABS. -/
theorem test_decode_moveAbs :
    decode .highFirst [0x01, 0x0D, 0x01, 0x00, 0x04, 0x01, 0x00, 0, 0, 0, 0, 0, 0, 0x00, 0x00, 0x0D] =
      .command (.moveAbs ⟨3329, 1025, 0, 0⟩) [0x00, 0x00, 0x0D] := by decide

/-- P2: MOVE_REL 10, -2, 7, 0. -/
theorem test_decode_moveRel :
    decode .highFirst [0x02, 0x00, 0x0A, 0x00, 0xFE, 0xFE, 0x02, 0x00, 0x06, 0x01, 0x00, 0x00, 0x00, 0x0D] =
      .command (.moveRel ⟨10, -2, 7, 0⟩) [0x0D] := by decide

theorem test_decode_getPos : decode .lowFirst [0x03, 0x0D] = .command .getPos [0x0D] := by decide
theorem test_decode_homeX : decode .lowFirst [0x04, 0x0D] = .command .homeX [0x0D] := by decide
theorem test_decode_homeY : decode .lowFirst [0x05, 0x0D] = .command .homeY [0x0D] := by decide
theorem test_decode_start : decode .lowFirst [0x06, 0x0D] = .command .start [0x0D] := by decide
theorem test_decode_stop : decode .lowFirst [0x07, 0x0D] = .command .stop [0x0D] := by decide
theorem test_decode_abort : decode .lowFirst [0x08, 0x0D] = .command .abort [0x0D] := by decide
theorem test_decode_getTarget : decode .lowFirst [0x0F, 0x0D] = .command .getTarget [0x0D] := by decide
theorem test_decode_emptyFrame : decode .highFirst [0x0D, 0x0D] = .command .emptyFrame [0x0D] := by decide
theorem test_decode_unassigned : decode .highFirst [0x09, 0x0D] = .command (.unassigned 0x09) [0x0D] := by decide

/-- The refusals by name: no byte, and eleven payload bytes. -/
theorem test_decode_refuses :
    decode .highFirst [] = .noOpcode ∧
      decode .highFirst [0x01, 0, 0, 0, 0, 0, 0, 0, 0, 0, 0, 0x0D] = .shortPayload 0x01 := by decide

/-- P1's MOVE_ABS 5, 0, 0, 0 and P2's GET_TARGET, as the host sends them (R56, R66). -/
theorem test_encode_frames :
    encode .highFirst (.moveAbs ⟨5, 0, 0, 0⟩) =
        [0x01, 0x00, 0x04, 0x01, 0x00, 0x00, 0x00, 0x00, 0x00, 0x00, 0x00, 0x00, 0x00, 0x0D] ∧
      encode .highFirst .getTarget = [0x0F, 0x0D] ∧ encode .highFirst .emptyFrame = [0x0D] := by decide

/-- V-CODEC, both orders. -/
theorem test_codec_encode :
    encodePos .highFirst 0x0401 = [0x04, 0x00, 0x01] ∧ encodePos .highFirst (-5) = [0xFE, 0xFA, 0x03] ∧
      encodePos .highFirst 0x7FFF = [0x7E, 0xFE, 0x03] ∧ encodePos .lowFirst (-128) = [0x80, 0xFE, 0x02] := by decide

/-- V-CODEC, non-canonical inputs. -/
theorem test_codec_decode :
    decodePos .highFirst 0x00 0x04 0xFD = 5 ∧ decodePos .highFirst 0x01 0x00 0x00 = 256 ∧
      decodePos .highFirst 0xFF 0xFF 0x03 = -1 ∧ decodePos .highFirst 0x00 0x0D 0x00 = 13 ∧
      decodePos .highFirst 0x0D 0x01 0x00 = 3329 := by decide

/-- Table words: the opcode alone, and the 14 bytes of P1's MOVE_ABS with the first byte lowest. -/
theorem test_table_words :
    decodeTableWord 8 0x01 = some (.moveAbs ⟨0, 0, 0, 0⟩) ∧
      decodeTableWord 112 0x0D00000000000000000001040001 = some (.moveAbs ⟨5, 0, 0, 0⟩) ∧
      decodeTableWord 16 0x0D02 = some (.moveRel ⟨0x0D00, 0, 0, 0⟩) ∧ decodeTableWord 16 0x0D03 = some .getPos ∧
      decodeTableWord 8 0x0D = some .emptyFrame ∧ decodeTableWord 16 0x0D55 = some (.unassigned 0x55) := by decide

/-! ### A step runs the row's instruction as the next one (log 10) -/

/-- MOVE_ABS 5, 0, 0, 0 (P1): one waypoint queued, 0E 0B 0D to send. -/
theorem test_step_moveAbs :
    ∃ t, step (State.reset.withFetchWord 112 0x0D00000000000000000001040001) = .next t ∧
      t.mq.contents 4 = [⟨5, 0, 0, 0⟩] ∧ t.ctrl.resp = [0x0E, 0x0B, 0x0D] ∧ t.ctrl.ctl = .respond :=
  ⟨_, rfl, by decide, by decide, by decide⟩

/-- MOVE_REL with the delta 1 on X at the endgoal (0,0,0,0). -/
theorem test_step_moveRel :
    ∃ t, step (State.reset.withFetchWord 112 0x0D00000000000000000001000002) = .next t ∧
      t.mq.contents 4 = [⟨1, 0, 0, 0⟩] ∧ t.ctrl.resp = [0x10, 0x0B, 0x0D] :=
  ⟨_, rfl, by decide, by decide⟩

theorem test_step_getPos :
    ∃ t, step (State.reset.withFetchWord 16 0x0D03) = .next t ∧
      t.ctrl.resp = [0x0A, 0, 0, 0, 0, 0, 0, 0, 0, 0, 0, 0, 0, 0x0D] :=
  ⟨_, rfl, by decide⟩

theorem test_step_homeX :
    ∃ t, step (State.reset.withFetchWord 16 0x0D04) = .next t ∧ t.emitted = [.home .x] ∧ t.ctrl.resp = [] :=
  ⟨_, rfl, by decide, by decide⟩

theorem test_step_homeY :
    ∃ t, step (State.reset.withFetchWord 16 0x0D05) = .next t ∧ t.emitted = [.home .y] ∧ t.ctrl.resp = [] :=
  ⟨_, rfl, by decide, by decide⟩

theorem test_step_start :
    ∃ t, step (State.reset.withFetchWord 16 0x0D06) = .next t ∧ t.ctrl.ctl = .respond ∧ t.ctrl.resp = [] :=
  ⟨_, rfl, by decide, by decide⟩

theorem test_step_stop :
    ∃ t, step ({ State.reset with motion := inFlight }.withFetchWord 16 0x0D07) = .next t ∧ t.motion = inFlight ∧
      t.ctrl.resp = [] :=
  ⟨_, rfl, by decide, by decide⟩

/-- V-CMD-10 and W6: the queue is emptied by `tail <- head`, the move in flight goes on. -/
theorem test_step_abort :
    ∃ t, step ((queueing [⟨9, 0, 0, 0⟩, ⟨7, 7, 0, 0⟩] { State.reset with motion := inFlight }).withFetchWord 16 0x0D08) =
        .next t ∧
      t.mq.tail = 2 ∧ t.mq.head = 2 ∧ t.motion = inFlight :=
  ⟨_, rfl, by decide, by decide, by decide⟩

/-- V-CMD-11. -/
theorem test_step_getTarget :
    ∃ t, step ((queueing [⟨9, 9, 0, 0⟩] { State.reset with motion := inFlight }).withFetchWord 16 0x0D0F) = .next t ∧
      t.ctrl.resp = [0x0A, 0x00, 0x08, 0x01, 0x00, 0x08, 0x01, 0, 0, 0, 0, 0, 0, 0x0D] :=
  ⟨_, rfl, by decide⟩

/-- V-CTL-2: READ_OP takes the one byte and goes to SPIN. -/
theorem test_step_emptyFrame :
    ∃ t, step (State.reset.withFetchWord 8 0x0D) = .next t ∧ t.ctrl.ctl = .spin ∧ t.rx.isEmpty = true ∧ t.rxLines = 0 :=
  ⟨_, rfl, by decide, by decide, by decide⟩

theorem test_step_unassigned :
    ∃ t, step (State.reset.withFetchWord 16 0x0D55) = .next t ∧ t.ctrl.op = 0x55 ∧ t.ctrl.resp = [] ∧ t.emitted = [] :=
  ⟨_, rfl, by decide, by decide, by decide⟩

/-! ### Commands on other states -/

/-- V-CMD-2: the queue is full. -/
theorem test_moveAbs_full :
    ∃ t, exec (.moveAbs ⟨5, 0, 0, 0⟩) (queueing [⟨1, 1, 0, 0⟩, ⟨2, 2, 0, 0⟩, ⟨3, 3, 0, 0⟩] State.reset) = .next t ∧
      t.ctrl.resp = [0x0E, 0x0C, 0x0D] ∧ t.mq = filled 4 [⟨1, 1, 0, 0⟩, ⟨2, 2, 0, 0⟩, ⟨3, 3, 0, 0⟩] :=
  ⟨_, rfl, by decide, by decide⟩

/-- V-MQ-6: saturation at both bounds is to the endgoal, and the third axis moves. -/
theorem test_moveRel_saturates :
    ∃ t, exec (.moveRel ⟨1, -1, 5, 0⟩)
          { State.reset with motion := { Motion.reset with target := ⟨127, -128, 0, 0⟩ } } = .next t ∧
      t.mq.contents 4 = [⟨127, -128, 5, 0⟩] ∧ t.ctrl.resp = [0x10, 0x0B, 0x0D] :=
  ⟨_, rfl, by decide, by decide⟩

/-- V-CMD-5: `current` = (-1,0,0,0). -/
theorem test_getPos_negative :
    ∃ t, exec .getPos { State.reset with motion := { Motion.reset with current := ⟨-1, 0, 0, 0⟩ } } = .next t ∧
      t.ctrl.resp = [0x0A, 0xFE, 0xFE, 0x03, 0, 0, 0, 0, 0, 0, 0, 0, 0, 0x0D] :=
  ⟨_, rfl, by decide⟩

/-- V-SAT. -/
theorem test_satAdd :
    satAdd Config.standard 100 27 = 127 ∧ satAdd Config.standard 100 28 = 100 ∧
      satAdd Config.standard (-100) (-28) = -128 ∧ satAdd Config.standard (-100) (-29) = -100 ∧
      satAdd Config.standard 32767 1 = 32767 ∧ satAdd Config.standard 1000 (-900) = 100 := by decide

/-! ### Circular buffers, handlers, motion, controller -/

/-- V-FIFO-1, steps 3 to 8, and V-FIFO-2. -/
theorem test_fifo :
    (filled 4 [0xA0, 0xB0, 0xC0] : Fifo Byte).push 4 0xD0 = none ∧
      (filled 4 [0xA0, 0xB0, 0xC0] : Fifo Byte).last 4 = 0xC0 ∧
      ((filled 4 [0xA0, 0xB0, 0xC0] : Fifo Byte).after 4 [.pop, .push 0xD0]).last 4 = 0xD0 ∧
      ((filled 4 [0xA0, 0xB0, 0xC0] : Fifo Byte).after 4 [.pop, .push 0xD0]).head = 0 ∧
      (Fifo.reset : Fifo Byte).results 2 [.push 0xA0, .push 0xB0, .pop, .push 0xB0] =
        [.pushed true, .pushed false, .popped (some 0xA0), .pushed true] := by decide

/-- V-RX-1 and V-RX-2, then V-RX-3: fifteen bytes fill N_RX = 16. -/
theorem test_rxHandler :
    rxHandler 0x0D (rxHandler 0x03 State.reset) = { State.reset with rx := filled 64 [0x03, 0x0D], rxLines := 1 } ∧
      rxHandler 0x0D (smallRx (List.replicate 15 0x41) State.reset) = smallRx (List.replicate 15 0x41) State.reset := by
  decide

/-- V-TX-1, V-TX-2. -/
theorem test_txHandler :
    (txHandler (sending [0x0E, 0x0B, 0x0D] State.reset)).emitted = [.tx 0x0E] ∧
      (txHandler (sending [0x0E, 0x0B, 0x0D] State.reset)).tx.tail = 1 ∧
      txHandler { State.reset with txie := true } = State.reset := by decide

/-- V-STEP-1, first row: Phi is counter-only. -/
theorem test_idleCheck_starts_move :
    (idleCheck (queueing [⟨-3, 2, 0, 1⟩] State.reset)).motion =
        { current := ⟨-1, 1, 0, 1⟩, target := ⟨-3, 2, 0, 1⟩, dir := ⟨false, true, false, true⟩, moving := true
          timerArmed := true } ∧
      (idleCheck (queueing [⟨-3, 2, 0, 1⟩] State.reset)).emitted =
        [.pulses ⟨some false, some true, none, none⟩] := by decide

/-- V-STEP-2: a zero-length move ends in the event that starts it. -/
theorem test_idleCheck_zero_length :
    (idleCheck (queueing [⟨0, 0, 0, 0⟩] State.reset)).motion = Motion.reset ∧
      (idleCheck (queueing [⟨0, 0, 0, 0⟩] State.reset)).emitted = [] ∧
      (idleCheck (queueing [⟨0, 0, 0, 0⟩] State.reset)).mq.isEmpty = true := by decide

/-- V-STEP-4. -/
theorem test_timerHandler :
    (timerHandler { State.reset with motion := inFlight }).motion = { inFlight with current := ⟨2, 0, 0, 0⟩ } ∧
      (timerHandler { State.reset with motion := inFlight }).emitted = [.pulses ⟨some true, none, none, none⟩] := by
  decide

/-- V-CTL-3: DISCARD goes on over junk and ends at the terminator. -/
theorem test_discard :
    (discardTransition (stateAt .discard [0x41, 0x0D] [])).ctrl.ctl = .discard ∧
      (discardTransition (stateAt .discard [0x0D] [])).ctrl.ctl = .spin ∧
      (discardTransition (stateAt .discard [0x0D] [])).rxLines = 0 := by decide

/-! ### Witnesses: for each obligation with hypotheses, values that meet them all (each clause at its boundary) -/

theorem test_witness_DecodeOfEncode :
    [Instr.moveAbs ⟨0x0D0D, -1, 0, 0⟩, .moveRel ⟨0x7FFF, 0, 0, -0x8000⟩, .getPos, .homeX, .homeY, .start, .stop, .abort,
      .getTarget, .emptyFrame, .unassigned 0x00, .unassigned 0xFF].all Instr.wf = true := by decide

theorem test_witness_FramesNeverHoldTerminatorAsData :
    (Instr.moveAbs ⟨0x0D0D, 0x0C0D, 0, 0⟩).wf = true ∧ (Instr.unassigned 0x0C).wf = true := by decide

theorem test_witness_CodecDecodeOrsEvictedBits :
    (0x03 : Byte).extractLsb' 0 2 = (0xFF : Byte).extractLsb' 0 2 ∧ (0x01 : Byte).getLsbD 0 = true := by decide

theorem test_witness_CodecRoundTrip : encodePos .lowFirst 0x0D0D = [0x0C, 0x0C, 0x03] := by decide

/-- Exactly the twelve bytes of a payload; eleven; and an opcode without payload and no byte behind it. -/
theorem test_witness_DecodeTakesOpcodeAndPayload :
    payloadLength 0x01 ≤ (List.replicate 12 (0x0D : Byte)).length ∧
      (List.replicate 11 (0x0D : Byte)).length < payloadLength 0x02 ∧ payloadLength 0x0D ≤ ([] : List Byte).length := by
  decide

theorem test_witness_FifoActsAsBoundedQueue :
    (filled 2 [(0xA0 : Byte)]).Ok 2 ∧ (filled 4 [(⟨1, 0, 0, 0⟩ : Pos4), ⟨2, 0, 0, 0⟩, ⟨3, 0, 0, 0⟩]).Ok 4 := by decide

/-- The two sides of the capacity law are met after three accepted pushes, and after one push and one pop. -/
theorem test_witness_FifoCapacityLaw :
    (Fifo.reset : Fifo Byte).Ok 4 ∧ (Fifo.reset : Fifo Byte).isEmpty = true ∧
      FifoOp.clear ∉ [FifoOp.push (1 : Byte), .push 2, .push 3] ∧
      acceptedCount ((Fifo.reset : Fifo Byte).results 4 [.push 1, .push 2, .push 3]) =
        poppedCount ((Fifo.reset : Fifo Byte).results 4 [.push 1, .push 2, .push 3]) + (4 - 1) ∧
      acceptedCount ((Fifo.reset : Fifo Byte).results 4 [.push 1, .pop]) =
        poppedCount ((Fifo.reset : Fifo Byte).results 4 [.push 1, .pop]) := by decide

/-- A free slot with fourteen bytes held, and the full FIFO of fifteen, N_RX = 16. -/
theorem test_witness_ReceivedByteIsPushedOrDropped :
    ∀ k ∈ [14, 15], let s := smallRx (List.replicate k 0x0D) (stateAt .poll [] [.rxByte 0x0D]);
      s.Shaped ∧ s.LinesCounted ∧ s.nextEvent = .rxByte 0x0D ∧ s.rx.isFull s.cfg.nRx = decide (k = 15) := by decide

theorem test_witness_TransmitReadySendsOrDisables :
    (let s := sending [] (stateAt .poll [] [.txReady]);
      s.Shaped ∧ s.nextEvent = .txReady ∧ s.txie = true ∧ s.tx.contents s.cfg.nTx = []) ∧
    (let s := sending [0x0E, 0x0D] (stateAt .poll [] [.txReady]);
      s.Shaped ∧ s.nextEvent = .txReady ∧ s.txie = true ∧ s.tx.contents s.cfg.nTx = 0x0E :: [0x0D]) :=
  ⟨by decide, by decide⟩

/-- The three reading states with nothing to read (PAYLOAD at its last `pcount`), and RESPOND before a full TX FIFO. -/
theorem test_witness_HoldingControllerChangesNothing :
    (∀ c ∈ [Ctl.readOp, .discard], let s := stateAt c [] [.controller];
      s.nextEvent = .controller ∧ s.ctrl.ctl = c ∧ s.rx.isEmpty = true) ∧
    (let s := { stateAt .payload [] [.controller] with ctrl := { Controller.reset with ctl := .payload, pcount := 11 } };
      s.nextEvent = .controller ∧ s.ctrl.ctl = .payload ∧ s.ctrl.pcount < 12 ∧ s.rx.isEmpty = true) ∧
    (let s := { stateAt .respond [] [.controller] with
        cfg := { Config.standard with nTx := 2 }, tx := filled 2 [0x0E]
        ctrl := { Controller.reset with ctl := .respond, resp := [0x0E, 0x0B, 0x0D], ridx := 2 } };
      s.nextEvent = .controller ∧ s.ctrl.ctl = .respond ∧ s.ctrl.ridx < s.ctrl.resp.length ∧
        s.tx.isFull s.cfg.nTx = true) := by decide

theorem test_witness_AvailableLineIsReadWithoutHold :
    ∀ bs ∈ [[0x0D], [0x03, 0x0D, 0x06], [0x0D, 0x0D]], let s := stateAt .poll bs [];
      s.Shaped ∧ s.LinesCounted ∧ s.lineAvailable = true := by decide

theorem test_witness_PollGoesToReadOpOrSpin :
    ∀ bs ∈ [[0x01, 0x00], [0x0D]], let s := stateAt .poll bs [.controller];
      s.nextEvent = .controller ∧ s.ctrl.ctl = .poll ∧ s.rxLines = bs.count terminator := by decide

/-- The terminator, an opcode with payload and one without. -/
theorem test_witness_ReadOpReadsOpcode :
    ∀ b ∈ [0x0D, 0x01, 0x02, 0x03, 0x55], let s := stateAt .readOp [b, 0x0D] [.controller];
      s.Shaped ∧ s.LinesCounted ∧ s.nextEvent = .controller ∧ s.ctrl.ctl = .readOp ∧
        s.rx.contents s.cfg.nRx = b :: [0x0D] := by decide

/-- The first and the twelfth payload byte, an 0x0D each. -/
theorem test_witness_PayloadIsReadBlind :
    ∀ k ∈ [0, 11], let s := { stateAt .payload [0x0D] [.controller] with
        ctrl := { Controller.reset with ctl := .payload, op := 0x01, pcount := k } };
      s.Shaped ∧ s.LinesCounted ∧ s.nextEvent = .controller ∧ s.ctrl.ctl = .payload ∧ s.ctrl.pcount < 12 ∧
        s.rx.contents s.cfg.nRx = 0x0D :: [] := by decide

theorem test_witness_StepRunsDecodedCommand :
    (let s := { stateAt .exec [] [.controller] with
        ctrl := { Controller.reset with ctl := .exec, op := 0x02, pcount := 12 } };
      s.nextEvent = .controller ∧ s.ctrl.ctl = .exec ∧ s.ctrl.op ≠ terminator ∧
        decode s.cfg.codecOrder (s.ctrl.op :: s.ctrl.pbuf.toList) = .command (.moveRel ⟨0, 0, 0, 0⟩) []) ∧
    ∃ t, let s := stateAt .readOp [0x0D] [.controller];
      s.nextEvent = .controller ∧ s.ctrl.ctl = .readOp ∧ s.advance.readByte = some (terminator, t) :=
  ⟨by decide, _, by decide, by decide, rfl⟩

/-- An empty response is over at once; the last of three bytes is still to write. -/
theorem test_witness_RespondWritesResponseInOrder :
    (let s := stateAt .respond [] [.controller];
      s.Shaped ∧ s.nextEvent = .controller ∧ s.ctrl.ctl = .respond ∧ s.ctrl.ridx = s.ctrl.resp.length) ∧
    (let s := { stateAt .respond [] [.controller] with
        ctrl := { Controller.reset with ctl := .respond, resp := [0x0E, 0x0B, 0x0D], ridx := 2 } };
      s.Shaped ∧ s.nextEvent = .controller ∧ s.ctrl.ctl = .respond ∧ s.ctrl.resp[s.ctrl.ridx]? = some 0x0D ∧
        s.tx.isFull s.cfg.nTx = false) := by decide

/-- V-CTL-3's junk, and none. -/
theorem test_witness_DiscardReadsThroughTerminator :
    ∀ junk ∈ [[], [0x41, 0x42]],
      let s := stateAt .discard (junk ++ 0x0D :: [0x03]) (List.replicate (junk.length + 1) .controller ++ [.txReady]);
      s.Shaped ∧ s.LinesCounted ∧ s.ctrl.ctl = .discard ∧
        s.rx.contents s.cfg.nRx = junk ++ terminator :: [0x03] ∧ terminator ∉ junk ∧
        s.sched = List.replicate (junk.length + 1) .controller ++ [.txReady] := by decide

theorem test_witness_SpinStartsNextMove :
    (let s := queueing [⟨9, 0, 0, 0⟩] { stateAt .spin [] [.controller] with motion := inFlight };
      s.Shaped ∧ s.nextEvent = .controller ∧ s.ctrl.ctl = .spin ∧ s.motion.moving = true) ∧
    (let s := stateAt .spin [] [.controller];
      s.Shaped ∧ s.nextEvent = .controller ∧ s.ctrl.ctl = .spin ∧ s.mq.contents s.cfg.nMq = []) ∧
    (∀ w ∈ [(⟨-3, 2, 0, 1⟩ : Pos4), ⟨0, 0, 0, 0⟩, ⟨0, 0, 0, 1⟩],
      let s := queueing [w, ⟨7, 0, 0, 0⟩] (stateAt .spin [] [.controller]);
      s.Shaped ∧ s.nextEvent = .controller ∧ s.ctrl.ctl = .spin ∧ s.motion.moving = false ∧
        s.mq.contents s.cfg.nMq = w :: [⟨7, 0, 0, 0⟩]) :=
  ⟨by decide, by decide, by decide⟩

/-- The invariant of a state, from checks that `decide` can make. -/
theorem inv_of_checks {s : State}
    (h : s.Shaped ∧ s.motion.TimerOnlyInMove ∧ s.motion.IdleAtTarget ∧ s.motion.MoveGoesOn ∧ s.LinesCounted ∧ s.TxArmed)
    (hd : s.motion.moving = true → ∀ a ∈ [Axis.x, .y, .theta, .phi], s.motion.current.get a ≠ s.motion.target.get a →
      (s.motion.dir.get a = true ↔ (s.motion.current.get a).toInt < (s.motion.target.get a).toInt))
    (hk : (s.ctrl.ctl = .payload → s.ctrl.pcount < 12 ∧ payloadLength s.ctrl.op = 12) ∧
      (s.ctrl.ctl = .exec → s.ctrl.op ≠ terminator ∧ s.ctrl.pcount = payloadLength s.ctrl.op) ∧
      (s.ctrl.ctl = .respond → s.ctrl.ridx ≤ s.ctrl.resp.length) ∧
      s.ctrl.pcount ≤ 12 ∧ s.ctrl.resp.length ≤ 14 ∧ s.ctrl.ridx ≤ 14)
    (hl : s.ctrl.ctl = .readOp → s.rxLines ≠ 0) : s.Inv :=
  { shaped := h.1, timer := h.2.1, idle := h.2.2.1, goesOn := h.2.2.2.1, lines := h.2.2.2.2.1, txArmed := h.2.2.2.2.2
    direction := fun hm a => hd hm a (by cases a <;> simp)
    controller := { payload := hk.1, exec := hk.2.1, respond := hk.2.2.1, ranges := hk.2.2.2 }
    lineToRead := hl }

/-- GET_POS with room in the TX FIFO for exactly its 14 bytes; MOVE_ABS with a command behind it. -/
theorem test_witness_CommandIsReadPerformedAndAnswered :
    (let s := { stateAt .poll [0x03, 0x0D] (List.replicate 19 .controller) with
        cfg := { Config.standard with nTx := 16 }, tx := filled 16 [0x0A], txie := true };
      s.Inv ∧ s.ctrl.ctl = .poll ∧ Instr.getPos.wf = true ∧ Instr.getPos ≠ .emptyFrame ∧
        s.rx.contents s.cfg.nRx = encode s.cfg.codecOrder .getPos ++ [] ∧
        ∃ v, exec .getPos s = .next v ∧ s.tx.count s.cfg.nTx + v.ctrl.resp.length < s.cfg.nTx ∧
          s.sched = List.replicate
            ((encode s.cfg.codecOrder .getPos).length + v.ctrl.resp.length + 3) .controller ++ []) ∧
    (let i := Instr.moveAbs ⟨5, 0, 0, 0⟩;
      let s := stateAt .poll (encode .highFirst i ++ [0x08, 0x0D]) (List.replicate 20 .controller ++ [.txReady]);
      s.Inv ∧ s.ctrl.ctl = .poll ∧ i.wf = true ∧ i ≠ .emptyFrame ∧
        s.rx.contents s.cfg.nRx = encode s.cfg.codecOrder i ++ [0x08, 0x0D] ∧
        ∃ v, exec i s = .next v ∧ s.tx.count s.cfg.nTx + v.ctrl.resp.length < s.cfg.nTx ∧
          s.sched = List.replicate
            ((encode s.cfg.codecOrder i).length + v.ctrl.resp.length + 3) .controller ++ [.txReady]) :=
  ⟨⟨inv_of_checks (by decide) (by decide) (by decide) (by decide), rfl, rfl, by decide, by decide, _, rfl, by decide,
      by decide⟩,
    ⟨inv_of_checks (by decide) (by decide) (by decide) (by decide), rfl, rfl, by decide, by decide, _, rfl, by decide,
      by decide⟩⟩

theorem test_witness_EmptyFrameIsConsumedAlone :
    let s := stateAt .poll [0x0D, 0x03] [.controller, .controller, .txReady];
    s.Inv ∧ s.ctrl.ctl = .poll ∧ s.rx.contents s.cfg.nRx = terminator :: [0x03] ∧
      s.sched = .controller :: .controller :: [.txReady] :=
  ⟨inv_of_checks (by decide) (by decide) (by decide) (by decide), rfl, by decide, rfl⟩

/-- Full with three waypoints, and room for one more, N_MQ = 4: both for MOVE_ABS and MOVE_REL. -/
theorem test_witness_MoveAbsQueuesVerbatim_and_MoveRelQueuesSaturatedSum :
    ∀ k ∈ [2, 3], let s := queueing (List.replicate k ⟨127, 0, 0, 0⟩) State.reset;
      s.Shaped ∧ s.mq.isFull s.cfg.nMq = decide (k = 3) := by decide

theorem test_witness_GetTargetAnswersEndgoal :
    (queueing [⟨9, 9, 0, 0⟩] { State.reset with motion := inFlight }).Shaped := by decide

theorem test_witness_UnassignedOpcodesChangeNothing :
    ∀ op ∈ [0x00, 0x09, 0x0C, 0x0E, 0x10, 0xFF],
      op ∉ [(0x01 : Byte), 0x02, 0x03, 0x04, 0x05, 0x06, 0x07, 0x08, 0x0F, 0x0D] := by decide

/-- Commands that change the movement queue, its slot at `mq_head`, and the emissions. -/
theorem test_witness_CommandsChangeOnlyTheirOwnState :
    State.reset.Shaped ∧
      (∃ t, exec (.moveAbs ⟨5, 0, 0, 0⟩) State.reset = .next t ∧ t.mq ≠ State.reset.mq ∧
        1 ≠ State.reset.mq.head) ∧
      (∃ t, exec .homeY State.reset = .next t ∧ t.emitted ≠ State.reset.emitted) :=
  ⟨by decide, ⟨_, rfl, by decide, by decide⟩, ⟨_, rfl, by decide⟩⟩

theorem test_witness_ResponsesAreFrames :
    (∃ t, exec .getTarget State.reset = .next t ∧ t.ctrl.resp ≠ []) ∧
      (∃ t, exec (.unassigned 0xFF) State.reset = .next t ∧ t.ctrl.resp = []) ∧ Instr.getTarget ≠ .emptyFrame ∧
      Instr.unassigned 0xFF ≠ .emptyFrame :=
  ⟨⟨_, rfl, by decide⟩, ⟨_, rfl, rfl⟩, by decide, by decide⟩

/-- The least and the greatest parameters of R7 and R8. -/
theorem test_witness_SatAddIsExactOrFirstOperand_and_ResetMeetsInvariant :
    Config.standard.Valid ∧
      { Config.standard with nRx := 16, nTx := 2, nMq := 2, posMin := -32768, posMax := 32767 }.Valid ∧
      { Config.standard with posMin := 0, posMax := 0 }.Valid := by decide

/-- A tick after which the move goes on, and the last tick of a move. -/
theorem test_witness_TimerExpiryTakesOneTick :
    ∀ x ∈ [1, 4],
      let s := { stateAt .poll [] [.timerExpiry] with motion := { inFlight with current := ⟨x, 0, 0, 0⟩ } }
      s.Inv ∧ s.nextEvent = .timerExpiry ∧ s.motion.timerArmed = true := by
  intro x hx
  rcases List.mem_cons.1 hx with rfl | hx
  · exact ⟨inv_of_checks (by decide) (by decide) (by decide) (by decide), rfl, rfl⟩
  · rcases List.mem_singleton.1 hx with rfl
    exact ⟨inv_of_checks (by decide) (by decide) (by decide) (by decide), rfl, rfl⟩

theorem test_witness_DisabledHandlersChangeNothing :
    (let s := stateAt .poll [] [.timerExpiry]; s.nextEvent = .timerExpiry ∧ s.motion.timerArmed = false) ∧
      (let s := stateAt .poll [] [.txReady]; s.nextEvent = .txReady ∧ s.txie = false) := by decide

/-- V-STEP-1 (three ticks, the first and second of them before the last) and V-STEP-2 (a zero-length move). -/
theorem test_witness_MoveTakesExactlyItsSteps :
    ∀ w ∈ [(⟨-3, 2, 0, 1⟩ : Pos4), ⟨0, 0, 0, 0⟩],
      let s := queueing [w, ⟨7, 0, 0, 0⟩] (stateAt .spin []
        (.controller :: (List.replicate (moveLength ⟨0, 0, 0, 0⟩ w - 1) .timerExpiry ++ [.txReady])))
      s.Inv ∧ s.ctrl.ctl = .spin ∧ s.motion.moving = false ∧ s.mq.contents s.cfg.nMq = w :: [⟨7, 0, 0, 0⟩] ∧
        s.sched = .controller ::
          (List.replicate (moveLength s.motion.current w - 1) .timerExpiry ++ [.txReady]) ∧
        moveLength s.motion.current w = if w = ⟨0, 0, 0, 0⟩ then 0 else 3 := by
  intro w hw
  rcases List.mem_cons.1 hw with rfl | hw
  · exact ⟨inv_of_checks (by decide) (by decide) (by decide) (by decide), rfl, rfl, by decide, rfl, by decide⟩
  · rcases List.mem_singleton.1 hw with rfl
    exact ⟨inv_of_checks (by decide) (by decide) (by decide) (by decide), rfl, rfl, by decide, rfl, by decide⟩

/-- A tick and a start of a move change the motion; the start changes the target. -/
theorem test_witness_MotionChangesOnlyInTicks :
    (∃ t, step { stateAt .poll [] [.timerExpiry] with motion := inFlight } = .next t ∧ t.motion ≠ inFlight) ∧
      (∃ t, step (queueing [⟨2, 0, 0, 0⟩] (stateAt .spin [] [.controller])) = .next t ∧
        t.motion.target ≠ Motion.reset.target ∧ t.motion.dir ≠ Motion.reset.dir) ∧
      (stateAt .poll [] [.timerExpiry]).nextEvent ≠ .powerOn ∧ (stateAt .spin [] [.controller]).nextEvent ≠ .powerOn :=
  ⟨⟨_, rfl, by decide⟩, ⟨_, rfl, by decide, by decide⟩, by decide, by decide⟩

theorem test_witness_HandlersLeaveControllerAlone :
    ∀ e ∈ [Event.rxByte 0x0D, .txReady, .timerExpiry], (stateAt .exec [] [e]).nextEvent = e ∧
      ∃ t, step (stateAt .exec [] [e]) = .next t := by
  intro e he
  simp only [List.mem_cons, List.not_mem_nil, or_false] at he
  rcases he with rfl | rfl | rfl <;> exact ⟨rfl, _, rfl⟩

/-- A step that moves each index: `rx_head`; `rx_tail`; `tx_head`; `tx_tail`; `mq_head`; `mq_tail`. -/
theorem test_witness_EachIndexHasOneWriter :
    (∃ t, step (stateAt .poll [] [.rxByte 0x41]) = .next t ∧ t.rx.head ≠ 0) ∧
      (∃ t, step (stateAt .discard [0x41] [.controller]) = .next t ∧ t.rx.tail ≠ 0) ∧
      (∃ t, step { stateAt .respond [] [.controller] with
          ctrl := { Controller.reset with ctl := .respond, resp := [0x0E] } } = .next t ∧ t.tx.head ≠ 0) ∧
      (∃ t, step (sending [0x0E] (stateAt .poll [] [.txReady])) = .next t ∧ t.tx.tail ≠ 0) ∧
      (∃ t, step { stateAt .exec [] [.controller] with
          ctrl := { Controller.reset with ctl := .exec, op := 0x01 } } = .next t ∧ t.mq.head ≠ 0) ∧
      (∃ t, step (queueing [⟨2, 0, 0, 0⟩] (stateAt .spin [] [.controller])) = .next t ∧ t.mq.tail ≠ 0) :=
  ⟨⟨_, rfl, by decide⟩, ⟨_, rfl, by decide⟩, ⟨_, rfl, by decide⟩, ⟨_, rfl, by decide⟩, ⟨_, rfl, by decide⟩,
    ⟨_, rfl, by decide⟩⟩

/-- A step that emits nothing and one that emits a byte (for EmissionsOnlyGrow, ParametersAreFixed). -/
theorem test_witness_EmissionsOnlyGrow_and_ParametersAreFixed :
    (∃ t, step (stateAt .poll [] [.controller]) = .next t ∧ t.emitted = []) ∧
      (∃ t, step (sending [0x0E] (stateAt .poll [] [.txReady])) = .next t ∧ t.emitted = [.tx 0x0E]) :=
  ⟨⟨_, rfl, rfl⟩, ⟨_, rfl, by decide⟩⟩

theorem test_witness_NextEventIsFixedOrFree :
    (stateAt .poll [] [.controller, .txReady]).sched = .controller :: [.txReady] ∧ State.reset.sched = [] := by decide

theorem test_witness_ResetLeavesIdleAtZero :
    (stateAt .exec [0x41] [.powerOn]).nextEvent = .powerOn ∧ ∃ t, step (stateAt .exec [0x41] [.powerOn]) = .next t :=
  ⟨rfl, _, rfl⟩

theorem test_witness_StepKeepsInvariant_and_NoStepTraps :
    let s := { stateAt .discard [0x41, 0x0D] [.controller] with motion := inFlight };
    s.Inv ∧ ∃ t, step s = .next t :=
  ⟨inv_of_checks (by decide) (by decide) (by decide) (by decide), _, rfl⟩

theorem test_witness_RunsKeepSpecInvariants : Reachable State.reset :=
  ⟨Config.standard, [], 0, by decide, .refl _⟩

/-- P1 up to the first timer expiry: the one witness that needs a run, since a move in flight has to be reached. -/
def firstMove : List Event :=
  (encode .highFirst (.moveAbs ⟨5, 0, 0, 0⟩)).map Event.rxByte ++ List.replicate 21 .controller ++ [.timerExpiry]

theorem test_witness_RunsMoveTowardTarget :
    ∃ s t, Reachable s ∧ s.motion.moving = true ∧ step s = .next t ∧ s.nextEvent = .timerExpiry ∧
      s.motion.current.x = 1 ∧ t.motion.current.x = 2 :=
  ⟨_, _, ⟨Config.standard, firstMove, 0, by decide, Reaches.of_runSteps (.refl _) 35 rfl⟩, rfl, rfl, rfl, rfl, rfl⟩

/-- In POLL and in SPIN, with each event that is no received byte and no power cycle. -/
theorem test_witness_QuiescentBlockStaysQuiescent :
    ∀ c ∈ [Ctl.poll, .spin], ∀ e ∈ [Event.controller, .txReady, .timerExpiry],
      (stateAt c [] [e]).Shaped ∧ (stateAt c [] [e]).Quiescent ∧ (stateAt c [] [e]).nextEvent = e := by decide

/-- Fifteen bytes fill N_RX = 16, and no line is counted. -/
theorem test_witness_RxDeadEndLastsForEver :
    ∀ c ∈ [Ctl.poll, .spin], let s := smallRx (List.replicate 15 0x41) (stateAt c [] [.rxByte 0x0D])
      s.RxDeadEnd ∧ s.nextEvent ≠ .powerOn := by decide

theorem test_witness_ExcludedStatesStop :
    (let s := { stateAt .payload [] [.controller] with ctrl := { Controller.reset with ctl := .payload, pcount := 12 } };
      s.nextEvent = .controller ∧ s.ctrl.ctl = .payload ∧ 12 ≤ s.ctrl.pcount) ∧
    (let s := { stateAt .respond [] [.controller] with ctrl := { Controller.reset with ctl := .respond, ridx := 1 } };
      s.nextEvent = .controller ∧ s.ctrl.ctl = .respond ∧ s.ctrl.resp.length < s.ctrl.ridx) ∧
    (let s := { stateAt .exec [] [.controller] with ctrl := { Controller.reset with ctl := .exec, op := 0x0D } };
      s.nextEvent = .controller ∧ s.ctrl.ctl = .exec ∧ s.ctrl.op = terminator) := by decide

end Sys2Proof.Tests
end

/-! The position codec, bit by bit (R58, R60, R84, R85): one lemma for each part of a codec frame, and from them the layout of
an encoded frame (O3) and what decoding three bytes gives (O5). -/

namespace Sys2Proof

/-! ### The bits of each byte of a codec frame (R58) -/

/-- Masking clears bit 0 and no other bit. -/
theorem getLsbD_maskedByte (b : Byte) (i : Nat) : (maskedByte b).getLsbD i = (decide (0 < i) && b.getLsbD i) := by
  have hmask : (0xFE : Byte) = ~~~1#8 := rfl
  rw [maskedByte, hmask, BitVec.getLsbD_and, BitVec.getLsbD_not, BitVec.getLsbD_one]
  rcases Nat.eq_zero_or_pos i with rfl | hi
  · simp
  · have hlt : b.getLsbD i = true → i < 8 := BitVec.lt_of_getLsbD
    simpa [hi, hi.ne'] using hlt

theorem getLsbD_zero_maskedByte (b : Byte) : (maskedByte b).getLsbD 0 = false := getLsbD_maskedByte b 0

@[simp] theorem extractLsb'_maskedByte (b : Byte) : (maskedByte b).extractLsb' 1 7 = b.extractLsb' 1 7 := by
  ext i hi
  simp [getLsbD_maskedByte]

@[simp] theorem extractLsb'_highByte (v : Word) : (highByte v).extractLsb' 1 7 = v.extractLsb' 9 7 := by
  ext i hi
  have hlt : 1 + i < 8 := by omega
  simp [highByte, hlt, ← Nat.add_assoc]

@[simp] theorem extractLsb'_lowByte (v : Word) : (lowByte v).extractLsb' 1 7 = v.extractLsb' 1 7 :=
  BitVec.extractLsb'_extractLsb'_of_le (by decide : 1 + 7 ≤ 8)

theorem getLsbD_zero_highByte (v : Word) : (highByte v).getLsbD 0 = v.getLsbD 8 := by simp [highByte]

theorem getLsbD_zero_lowByte (v : Word) : (lowByte v).getLsbD 0 = v.getLsbD 0 := by simp [lowByte]

/-- Bit 0 of B2 is that of the low byte, bit 1 is bit 0 of the high byte, and every other bit is 0. -/
theorem getLsbD_evictedBits (h l : Byte) (i : Nat) :
    (evictedBits h l).getLsbD i = ((decide (i = 1) && h.getLsbD 0) || (decide (i = 0) && l.getLsbD 0)) := by
  match i with
  | 0 => simp [evictedBits]
  | 1 => simp [evictedBits]
  | i + 2 => simp [evictedBits]

@[simp] theorem extractLsb'_evictedBits (h l : Byte) : (evictedBits h l).extractLsb' 2 6 = 0#6 := by
  ext i hi
  have hone : 2 + i ≠ 1 := by omega
  simp [getLsbD_evictedBits, hone]

theorem getLsbD_one_evictedBits (h l : Byte) : (evictedBits h l).getLsbD 1 = h.getLsbD 0 := by
  rw [getLsbD_evictedBits]
  simp

theorem getLsbD_zero_evictedBits (h l : Byte) : (evictedBits h l).getLsbD 0 = l.getLsbD 0 := getLsbD_evictedBits h l 0

/-- Settles O3: `B0`, `B1` and `B2` are the masked high byte, the masked low byte and the evicted bits. -/
theorem codecFrameLayout : Obligations.CodecFrameLayout := by
  intro v
  refine ⟨maskedByte (highByte v), maskedByte (lowByte v), evictedBits (highByte v) (lowByte v), rfl, rfl,
    ?_, ?_, ?_, ?_, ?_, ?_, ?_⟩
  · rw [extractLsb'_maskedByte, extractLsb'_highByte]
  · exact getLsbD_zero_maskedByte _
  · rw [extractLsb'_maskedByte, extractLsb'_lowByte]
  · exact getLsbD_zero_maskedByte _
  · exact extractLsb'_evictedBits _ _
  · rw [getLsbD_one_evictedBits, getLsbD_zero_highByte]
  · rw [getLsbD_zero_evictedBits, getLsbD_zero_lowByte]

/-! ### Decoding any three bytes (R60) -/

/-- Masking with 1 reads the one-bit field 0. -/
theorem and_one_eq_setWidth_extractLsb' (b : Byte) : b &&& 0x01 = (b.extractLsb' 0 1).setWidth 8 := by
  ext i hi
  match i with
  | 0 => simp
  | i + 1 => simp

/-- The evicted bit of the high byte is the one-bit field 1 of B2. -/
theorem restoreHigh_eq (b b2 : Byte) : restoreHigh b b2 = b ||| (b2.extractLsb' 1 1).setWidth 8 := by
  have hfield : (b2 >>> 1).extractLsb' 0 1 = b2.extractLsb' 1 1 := by
    ext i hi
    simp
  rw [restoreHigh, and_one_eq_setWidth_extractLsb', hfield]

/-- The evicted bit of the low byte is the one-bit field 0 of B2. -/
theorem restoreLow_eq (b b2 : Byte) : restoreLow b b2 = b ||| (b2.extractLsb' 0 1).setWidth 8 := by
  rw [restoreLow, and_one_eq_setWidth_extractLsb']

/-- Both evicted bits lie in bits 1 and 0 of B2, so bits 7..2 do not matter. -/
theorem decodePos_congr {b2 c2 : Byte} (h : b2.extractLsb' 0 2 = c2.extractLsb' 0 2) (o : CodecOrder) (b0 b1 : Byte) :
    decodePos o b0 b1 b2 = decodePos o b0 b1 c2 := by
  have hhigh : b2.extractLsb' 1 1 = c2.extractLsb' 1 1 := by
    simpa [BitVec.extractLsb'_extractLsb'_of_le] using congrArg (BitVec.extractLsb' 1 1) h
  have hlow : b2.extractLsb' 0 1 = c2.extractLsb' 0 1 := by
    simpa [BitVec.extractLsb'_extractLsb'_of_le] using congrArg (BitVec.extractLsb' 0 1) h
  cases o <;> simp only [decodePos, restoreHigh_eq, restoreLow_eq, hhigh, hlow]

/-- Bit 8 of a word decoded high byte first is bit 0 of its restored high byte. -/
theorem getLsbD_eight_decodePos_highFirst (b0 b1 b2 : Byte) :
    (decodePos .highFirst b0 b1 b2).getLsbD 8 = (restoreHigh b0 b2).getLsbD 0 := by
  rw [decodePos, BitVec.getLsbD_append]
  rfl

theorem getLsbD_zero_decodePos_highFirst (b0 b1 b2 : Byte) :
    (decodePos .highFirst b0 b1 b2).getLsbD 0 = (restoreLow b1 b2).getLsbD 0 := by
  rw [decodePos, BitVec.getLsbD_append]
  rfl

/-- Settles O5: each data byte is ORed with its field of B2, which keeps the bits that are set. -/
theorem codecDecodeOrsEvictedBits : Obligations.CodecDecodeOrsEvictedBits := by
  intro b0 b1 b2
  refine ⟨?_, ?_, ?_, ?_, ?_⟩
  · rw [decodePos, restoreHigh_eq, restoreLow_eq]
  · rw [decodePos, restoreHigh_eq, restoreLow_eq]
  · intro o c2 h
    exact decodePos_congr h o b0 b1
  · intro h
    rw [getLsbD_eight_decodePos_highFirst, restoreHigh_eq, BitVec.getLsbD_or, h, Bool.true_or]
  · intro h
    rw [getLsbD_zero_decodePos_highFirst, restoreLow_eq, BitVec.getLsbD_or, h, Bool.true_or]

end Sys2Proof

/-! The two handlers of the serial transport (R77, R78): what each does to a FIFO with room or with a byte to send, and from
that one step with a received byte (O11) and one with the transmitter ready (O12). -/

namespace Sys2Proof.Machine

variable {s : State} {b : Byte}

/-! ### The RX handler (R77) -/

theorem rxHandler_of_push {rx : Fifo Byte} (h : s.rx.push s.cfg.nRx b = some rx) :
    rxHandler b s =
      { s with rx := rx, rxLines := if b = terminator then lineCountUp s.cfg s.rxLines else s.rxLines } := by
  simp only [rxHandler, h]

/-- The counted lines are among the occupied slots, so a buffer with a free slot leaves the line counter room for one more
(R37). -/
theorem State.LinesCounted.rxLines_succ_lt (hl : s.LinesCounted) (hok : s.rx.Ok s.cfg.nRx)
    (hfree : s.rx.isFull s.cfg.nRx = false) : s.rxLines + 1 < s.cfg.nRx := by
  have hle : s.rxLines ≤ s.rx.count s.cfg.nRx := by
    rw [hl, ← Fifo.length_contents]
    exact List.count_le_length
  have hlt := hok.count_lt
  have hne : s.rx.count s.cfg.nRx ≠ s.cfg.nRx - 1 := by
    rw [Ne, ← hok.isFull_iff, hfree]
    decide
  omega

/-- With a free slot the line counter does not wrap. -/
theorem rxHandler_of_not_full (hl : s.LinesCounted) (hok : s.rx.Ok s.cfg.nRx) (hfree : s.rx.isFull s.cfg.nRx = false) :
    ∃ rx, s.rx.push s.cfg.nRx b = some rx ∧
      rxHandler b s = { s with rx := rx, rxLines := if b = terminator then s.rxLines + 1 else s.rxLines } := by
  obtain ⟨rx, hpush⟩ := Fifo.push_isSome_of_not_full (x := b) hfree
  refine ⟨rx, hpush, ?_⟩
  rw [rxHandler_of_push hpush, lineCountUp_of_lt (hl.rxLines_succ_lt hok hfree)]

/-- Settles O11: the step is the RX handler's, and an accepted push writes the slot at `rx_head` alone. -/
theorem receivedByteIsPushedOrDropped : Obligations.ReceivedByteIsPushedOrDropped := by
  intro s b hs hl he
  have hstep : step s = .next (rxHandler b s.advance) := step_of_event he
  obtain ⟨-, hok, -, -⟩ := hs
  constructor
  · intro hfull
    rw [hstep, rxHandler_of_full (by simpa using hfull)]
  · intro hfree
    obtain ⟨rx, hpush, hrun⟩ :=
      rxHandler_of_not_full (b := b) hl.advance (by simpa using hok) (by simpa using hfree)
    rw [State.advance_rx, State.advance_cfg] at hpush
    rw [State.advance_rxLines] at hrun
    obtain ⟨-, hmem, hhead, htail⟩ := Fifo.push_eq_some hpush
    have hcontents := hok.contents_push hpush
    obtain ⟨-, -, hwf, -⟩ := hok
    refine ⟨rx, by rw [hstep, hrun], hcontents, htail, hhead, fun i => ?_⟩
    rw [hmem, Memory.read_write hwf]

/-! ### The TX handler (R78) -/

theorem txHandler_of_empty (hie : s.txie = true) (h : s.tx.isEmpty = true) : txHandler s = { s with txie := false } := by
  simp only [txHandler, hie, if_true, Fifo.pop_eq_none_iff.2 h]

theorem txHandler_of_pop {tx : Fifo Byte} (hie : s.txie = true) (h : s.tx.pop s.cfg.nTx = some (b, tx)) :
    txHandler s = { s with tx := tx }.emit (.tx b) := by
  simp only [txHandler, hie, if_true, h]

/-- Settles O12: the step is the TX handler's, and a pop moves `tx_tail` alone. -/
theorem transmitReadySendsOrDisables : Obligations.TransmitReadySendsOrDisables := by
  intro s hs he hie
  have hstep : step s = .next (txHandler s.advance) := step_of_event he
  have hieAdvance : s.advance.txie = true := by rw [State.advance_txie, hie]
  obtain ⟨-, -, hok, -⟩ := hs
  constructor
  · intro hnil
    have hempty : s.tx.isEmpty = true := hok.contents_eq_nil_iff.1 hnil
    rw [hstep, txHandler_of_empty hieAdvance (by rw [State.advance_tx, hempty])]
  · intro b rest hcons
    obtain ⟨tx, hpop, -, hrest⟩ := hok.pop_of_contents hcons
    have hpopAdvance : s.advance.tx.pop s.advance.cfg.nTx = some (b, tx) := by simpa using hpop
    have hrun : step s = .next { s.advance with tx := tx, emitted := .tx b :: s.emitted } := by
      rw [hstep, txHandler_of_pop hieAdvance hpopAdvance, State.emit, State.advance_emitted]
    obtain ⟨-, -, rfl⟩ := Fifo.pop_eq_some hpop
    exact ⟨_, hrun, hrest, rfl, rfl, rfl⟩

end Sys2Proof.Machine

/-! Saturating addition and the step timer (R88, R89, R97 to R101): the exact integer that `satAdd` stands for (O35), and
what one tick of a move in flight does to the positions and to the step requests (O36). -/

namespace Sys2Proof.Machine

variable {s : State} {m : Motion}

/-! ### Saturating addition (R88, R89) -/

/-- The bounds of a valid configuration fit a position, so a sum between them is represented as it is. -/
theorem toInt_ofInt_of_bounds {c : Config} (hc : c.Valid) {n : Int} (hlo : c.posMin ≤ n) (hhi : n ≤ c.posMax) :
    (BitVec.ofInt 16 n).toInt = n := by
  obtain ⟨-, -, -, -, hmin, -, hmax⟩ := hc
  exact BitVec.toInt_ofInt_eq_self (by decide) (by norm_num; omega) (by norm_num; omega)

theorem toInt_satAdd {c : Config} (hc : c.Valid) (x y : Word) :
    (satAdd c x y).toInt =
      if c.posMin ≤ x.toInt + y.toInt ∧ x.toInt + y.toInt ≤ c.posMax then x.toInt + y.toInt else x.toInt := by
  rcases satAdd_cases c x y with ⟨hlo, hhi, hsum⟩ | ⟨hout, hfirst⟩
  · rw [hsum, if_pos ⟨hlo, hhi⟩, toInt_ofInt_of_bounds hc hlo hhi]
  · rw [hfirst, if_neg hout]

/-- Settles O35: each axis is a `satAdd` of its own. -/
theorem satAddIsExactOrFirstOperand : Obligations.SatAddIsExactOrFirstOperand := by
  intro c p d a hc
  rw [satAdd4, Axes.get_ofFn]
  exact toInt_satAdd hc _ _

/-! ### One tick of a move in flight (R97 to R99) -/

theorem Motion.toInt_stepped_current (hm : m.moving = true) (hd : m.DirAgrees) (a : Axis) :
    (m.stepped.current.get a).toInt =
      (m.current.get a).toInt + ((m.target.get a).toInt - (m.current.get a).toInt).sign := by
  rw [Motion.stepped_current]
  exact stepAxis_toInt m a (hd hm a)

/-- One unit toward a target brings the distance down by one, unless it is 0. -/
theorem natAbs_sub_add_sign (c t : Int) : (t - (c + (t - c).sign)).natAbs = (t - c).natAbs - 1 := by
  rcases lt_trichotomy (t - c) 0 with h | h | h
  · rw [Int.sign_eq_neg_one_of_neg h]
    omega
  · rw [h, Int.sign_zero]
    omega
  · rw [Int.sign_eq_one_of_pos h]
    omega

theorem Motion.axisDistance_stepped (hm : m.moving = true) (hd : m.DirAgrees) (a : Axis) :
    axisDistance m.stepped.current m.target a = axisDistance m.current m.target a - 1 := by
  rw [axisDistance, Motion.toInt_stepped_current hm hd, natAbs_sub_add_sign, axisDistance]

theorem tickPulses_get (physical : Axes Bool) (m : Motion) (a : Axis) :
    (tickPulses physical m).get a =
      if m.current.get a ≠ m.target.get a ∧ physical.get a = true then some (m.dir.get a) else none := by
  simp [tickPulses, Motion.differs]

/-! ### The step-timer handler (R101) -/

/-- The motion state whose pending expiry has been consumed. -/
def Motion.consumed (m : Motion) : Motion := { m with timerArmed := false }

@[simp] theorem Motion.consumed_current (m : Motion) : m.consumed.current = m.current := rfl
@[simp] theorem Motion.consumed_target (m : Motion) : m.consumed.target = m.target := rfl
@[simp] theorem Motion.consumed_dir (m : Motion) : m.consumed.dir = m.dir := rfl
@[simp] theorem Motion.consumed_moving (m : Motion) : m.consumed.moving = m.moving := rfl
@[simp] theorem Motion.consumed_timerArmed (m : Motion) : m.consumed.timerArmed = false := rfl

/-- An armed timer stands for a move in flight (R34), so its expiry takes a tick. -/
theorem timerHandler_of_armed (ht : s.motion.TimerOnlyInMove) (ha : s.motion.timerArmed = true) :
    timerHandler s = stepTick { s with motion := s.motion.consumed } := by
  rcases timerHandler_cases s with ⟨hoff, -⟩ | ⟨-, hidle, -⟩ | ⟨-, -, hrun⟩
  · rw [ha] at hoff
    cases hoff
  · rw [ht ha] at hidle
    cases hidle
  · exact hrun

/-- One step with the armed timer's expiry writes the motion and the emissions only. -/
theorem step_of_armed_timerExpiry (ht : s.motion.TimerOnlyInMove) (he : s.nextEvent = .timerExpiry)
    (ha : s.motion.timerArmed = true) :
    step s = .next { s.advance with
      motion := s.motion.consumed.stepped.settle
      emitted := emitPulses (tickPulses s.cfg.physical s.motion.consumed) s.emitted } := by
  have hstep : step s = .next (timerHandler s.advance) := step_of_event he
  rw [hstep, timerHandler_of_armed (by rwa [State.advance_motion]) (by rwa [State.advance_motion]), stepTick]
  simp only [State.advance_motion, State.advance_cfg, State.advance_emitted]

/-- Settles O36: the tick is StepTick on the motion state whose expiry has been consumed. -/
theorem timerExpiryTakesOneTick : Obligations.TimerExpiryTakesOneTick := by
  intro s hinv he ha
  have hmoving : s.motion.consumed.moving = true := hinv.timer ha
  have hdir : s.motion.consumed.DirAgrees := hinv.direction
  refine ⟨_, _, tickPulses s.cfg.physical s.motion.consumed, step_of_armed_timerExpiry hinv.timer he ha,
    ?_, ?_, fun a => ?_, fun a => ?_, fun a => ?_, emitPulses_eq _ _, ?_, ?_⟩
  · simp
  · simp
  · rw [Motion.settle_current]
    exact Motion.toInt_stepped_current hmoving hdir a
  · rw [Motion.settle_current, Motion.settle_target]
    exact Motion.axisDistance_stepped hmoving hdir a
  · exact tickPulses_get _ _ a
  · simp
  · simp [hinv.timer ha]

end Sys2Proof.Machine

/-! The controller's POLL, READ_OP and SPIN transitions (R103, R104, R109): what each does when it does not hold, and from
that one step in POLL (O15), READ_OP (O16) and SPIN (O21). -/

namespace Sys2Proof.Machine

variable {s : State} {b : Byte} {w : Pos4}

/-! ### A step that is the controller's turn (R29, R126) -/

theorem step_of_poll (he : s.nextEvent = .controller) (hc : s.ctrl.ctl = .poll) :
    step s = .next (pollTransition s.advance) := by
  simp only [step_of_event he, runEvent, controllerTurn, State.advance_ctrl, hc]

theorem step_of_readOp (he : s.nextEvent = .controller) (hc : s.ctrl.ctl = .readOp) :
    step s = readOpTransition s.advance := by
  simp only [step_of_event he, runEvent, controllerTurn, State.advance_ctrl, hc]

theorem step_of_spin (he : s.nextEvent = .controller) (hc : s.ctrl.ctl = .spin) :
    step s = .next (spinTransition s.advance) := by
  simp only [step_of_event he, runEvent, controllerTurn, State.advance_ctrl, hc]

/-! ### POLL (R103) -/

theorem pollTransition_eq (s : State) : pollTransition s = s.goto (if s.rxLines = 0 then .spin else .readOp) := by
  by_cases h : s.rxLines = 0 <;> simp [pollTransition, State.lineAvailable, h]

/-- Settles O15: a line is available exactly when `rx_lines` is not 0. -/
theorem pollGoesToReadOpOrSpin : Obligations.PollGoesToReadOpOrSpin := by
  intro s he hc
  rw [step_of_poll he hc, pollTransition_eq, State.advance_rxLines, State.goto, State.advance_ctrl]

/-! ### READ_OP (R81, R104) -/

/-- A terminator in the RX FIFO is counted, and the counter is within its capacity (R37). -/
theorem State.LinesCounted.rxLines_bounds (hl : s.LinesCounted) (hok : s.rx.Ok s.cfg.nRx)
    (hmem : terminator ∈ s.rx.contents s.cfg.nRx) : 0 < s.rxLines ∧ s.rxLines ≤ s.cfg.nRx := by
  have hlen : s.rxLines ≤ s.rx.count s.cfg.nRx := by
    rw [hl, ← Fifo.length_contents]
    exact List.count_le_length
  refine ⟨?_, hlen.trans hok.count_lt.le⟩
  rw [hl]
  exact List.count_pos_iff.2 hmem

/-- Reading the oldest byte of an RX FIFO with counted lines counts a terminator off without a wrap (R81). -/
theorem State.readByte_of_contents {rest : List Byte} (hok : s.rx.Ok s.cfg.nRx) (hl : s.LinesCounted)
    (hc : s.rx.contents s.cfg.nRx = b :: rest) :
    ∃ rx, s.rx.pop s.cfg.nRx = some (b, rx) ∧ rx.contents s.cfg.nRx = rest ∧
      s.readByte =
        some (b, { s with rx := rx, rxLines := if b = terminator then s.rxLines - 1 else s.rxLines }) := by
  obtain ⟨rx, hpop, -, hrest⟩ := hok.pop_of_contents hc
  refine ⟨rx, hpop, hrest, ?_⟩
  rw [State.readByte_of_pop hpop]
  by_cases hb : b = terminator
  · obtain ⟨hpos, hle⟩ := hl.rxLines_bounds hok (by simp [hc, hb])
    rw [if_pos hb, if_pos hb, lineCountDown_of_pos hpos hle]
  · rw [if_neg hb, if_neg hb]

theorem afterOpcode_eq (b : Byte) : afterOpcode b = if b = 0x01 ∨ b = 0x02 then .payload else .exec := by
  rw [afterOpcode, payloadLength, opMoveAbs, opMoveRel]
  by_cases h : b = 0x01 ∨ b = 0x02
  · rw [if_pos h, if_pos rfl, if_pos h]
  · rw [if_neg h, if_neg (by decide), if_neg h]

/-- Once the byte is read, READ_OP goes where it says (R104). -/
theorem readOpTransition_of_readByte {u : State} (h : s.readByte = some (b, u)) :
    readOpTransition s = .next { u with ctrl := { u.ctrl with
      op := b, pcount := 0
      ctl := if b = terminator then .spin else if b = 0x01 ∨ b = 0x02 then .payload else .exec } } := by
  rcases readOpTransition_cases s with ⟨hempty, -⟩ | ⟨c, v, hread, hrun⟩
  · rw [State.readByte_eq_none_iff.2 hempty] at h
    cases h
  · rw [h] at hread
    cases hread
    rw [hrun, afterOpcode_eq, State.goto]

/-- Settles O16: the byte read is the oldest one, and a pop moves `rx_tail` alone. -/
theorem readOpReadsOpcode : Obligations.ReadOpReadsOpcode := by
  intro s b rest hs hl he hctl hc
  obtain ⟨-, hok, -, -⟩ := hs
  obtain ⟨rx, hpop, hrest, hread⟩ :=
    State.readByte_of_contents (s := s.advance) (b := b) (by simpa using hok) hl.advance (by simpa using hc)
  rw [State.advance_cfg] at hrest hpop
  rw [State.advance_rx] at hpop
  have hstep := readOpTransition_of_readByte hread
  simp only [State.advance_ctrl, State.advance_rxLines] at hstep
  obtain ⟨-, -, rfl⟩ := Fifo.pop_eq_some hpop
  exact ⟨_, (step_of_readOp he hctl).trans hstep, hrest, rfl, rfl⟩

/-! ### SPIN (R100, R109) -/

theorem idleCheck_of_nothing_to_start (h : s.motion.moving = true ∨ s.mq.isEmpty = true) : idleCheck s = s := by
  rcases idleCheck_cases s with ⟨-, hrun⟩ | ⟨w, mq, hidle, hpop, -⟩
  · exact hrun
  · obtain ⟨hne, -, -⟩ := Fifo.pop_eq_some hpop
    simp [hidle, hne] at h

theorem idleCheck_of_pop {mq : Fifo Pos4} (hidle : s.motion.moving = false) (h : s.mq.pop s.cfg.nMq = some (w, mq)) :
    idleCheck s = stepTick { s with mq := mq, motion := s.motion.begin w } := by
  simp [idleCheck, hidle, h]

/-- The directions of a new move are the ways to its target (R36, R97). -/
theorem Motion.dirAgrees_begin (m : Motion) (w : Pos4) : (m.begin w).DirAgrees := by
  intro _ a _
  simp

/-- One step of an idle block in SPIN, a waypoint being queued: it is popped, and the move starts with its first tick. -/
theorem step_of_spin_pop {mq : Fifo Pos4} (he : s.nextEvent = .controller) (hc : s.ctrl.ctl = .spin)
    (hidle : s.motion.moving = false) (hpop : s.mq.pop s.cfg.nMq = some (w, mq)) :
    step s = .next { s.advance with
      mq := mq
      motion := (s.motion.begin w).stepped.settle
      emitted := emitPulses (tickPulses s.cfg.physical (s.motion.begin w)) s.emitted
      ctrl := { s.ctrl with ctl := .poll } } := by
  rw [step_of_spin he hc, spinTransition, idleCheck_of_pop (mq := mq) (w := w) (by simpa using hidle) (by simpa using hpop),
    State.goto, stepTick]
  simp only [State.advance_motion, State.advance_cfg, State.advance_emitted, State.advance_ctrl]

/-- Settles O21: a queued waypoint's move starts, and its first step is the tick of a move whose directions agree with the
way to the target. -/
theorem spinStartsNextMove : Obligations.SpinStartsNextMove := by
  intro s hs he hc
  obtain ⟨-, -, -, hok⟩ := hs
  constructor
  · intro hnothing
    rw [hok.contents_eq_nil_iff] at hnothing
    rw [step_of_spin he hc, spinTransition, idleCheck_of_nothing_to_start (by simpa using hnothing), State.goto,
      State.advance_ctrl]
  · intro w rest hidle hcons
    obtain ⟨mq, hpop, -, hrest⟩ := hok.pop_of_contents hcons
    have hstep := step_of_spin_pop he hc hidle hpop
    have hdir := s.motion.dirAgrees_begin w
    obtain ⟨-, -, rfl⟩ := Fifo.pop_eq_some hpop
    refine ⟨_, _, _, tickPulses s.cfg.physical (s.motion.begin w), hstep, hrest, rfl, rfl, ?_, fun a => ?_, fun a => ?_,
      fun a => ?_, emitPulses_eq _ _, ?_, fun hshort => ?_, fun hthere => ?_⟩
    · simp
    · simp
    · rw [Motion.settle_current]
      exact Motion.toInt_stepped_current (Motion.begin_moving _ _) hdir a
    · rw [tickPulses_get]
      simp
    · simp
    · rw [Motion.settle_current] at hshort
      simp [hshort]
    · rw [Motion.settle_current] at hthere
      simp [hthere]

end Sys2Proof.Machine

/-! The commands (R110 to R119): the enqueue that both moves share (O24, O25), the round trip of the position response that
both queries share (O26, O27), and the commands without a response (O28, O29, O30, O32). -/

namespace Sys2Proof.Machine

variable {s : State}

/-! ### The move commands (R91, R92, R110, R111) -/

theorem enqueueAbsolute_of_full (h : s.mq.isFull s.cfg.nMq = true) (p : Pos4) : enqueueAbsolute s p = (false, s) := by
  simp only [enqueueAbsolute, Fifo.push_eq_none_iff.2 h]

/-- With a free slot the waypoint goes behind the others, and only the slot at `mq_head` is written (R91). -/
theorem enqueueAbsolute_of_free (hok : s.mq.Ok s.cfg.nMq) (hfree : s.mq.isFull s.cfg.nMq = false) (p : Pos4) :
    ∃ mq : Fifo Pos4, enqueueAbsolute s p = (true, { s with mq := mq }) ∧
      mq.contents s.cfg.nMq = s.mq.contents s.cfg.nMq ++ [p] ∧ mq.tail = s.mq.tail ∧
      mq.head = (s.mq.head + 1) % s.cfg.nMq ∧
      ∀ i, Memory.read mq.mem i = if i = s.mq.head then p else Memory.read s.mq.mem i := by
  obtain ⟨mq, hpush⟩ := Fifo.push_isSome_of_not_full (x := p) hfree
  have hcontents := hok.contents_push hpush
  obtain ⟨-, hmem, hhead, htail⟩ := Fifo.push_eq_some hpush
  obtain ⟨-, -, hwf, -⟩ := hok
  refine ⟨mq, by simp only [enqueueAbsolute, hpush], hcontents, htail, hhead, fun i => ?_⟩
  rw [hmem, Memory.read_write hwf]

/-- Settles O24: MOVE_ABS is `enqueueAbsolute` of the payload's positions. -/
theorem moveAbsQueuesVerbatim : Obligations.MoveAbsQueuesVerbatim := by
  intro s p q hs
  obtain ⟨-, -, -, hok⟩ := hs
  refine ⟨rfl, fun hfull => ?_, fun hfree => ?_⟩
  · rw [exec, execMoveAbs, enqueueAbsolute_of_full hfull]
    rfl
  · obtain ⟨mq, hrun, hqueued⟩ := enqueueAbsolute_of_free hok hfree p
    refine ⟨mq, ?_, hqueued⟩
    rw [exec, execMoveAbs, hrun]
    rfl

/-- Settles O25: MOVE_REL is `enqueueAbsolute` of the endgoal plus the deltas, each axis a `satAdd`. -/
theorem moveRelQueuesSaturatedSum : Obligations.MoveRelQueuesSaturatedSum := by
  intro s d q hs
  have hgoal := hs.endgoal_eq
  obtain ⟨hvalid, -, -, hok⟩ := hs
  refine ⟨rfl, fun hfull => ?_, fun hfree => ?_⟩
  · rw [exec, execMoveRel, enqueueRelative, enqueueAbsolute_of_full hfull]
    rfl
  · obtain ⟨mq, hrun, hcontents, htail, -, hmem⟩ :=
      enqueueAbsolute_of_free hok hfree (satAdd4 s.cfg s.endgoal d)
    refine ⟨mq, satAdd4 s.cfg s.endgoal d, ?_, hcontents, htail, hmem, fun a => ?_⟩
    · rw [exec, execMoveRel, enqueueRelative, hrun]
      rfl
    · rw [← hgoal]
      exact satAddIsExactOrFirstOperand s.cfg s.endgoal d a hvalid

/-! ### The position queries (R86, R87, R112, R118) -/

/-- The evicted bit 0 of the high byte comes back from bit 1 of B2. -/
theorem restoreHigh_maskedByte (h l : Byte) : restoreHigh (maskedByte h) (evictedBits h l) = h := by
  ext i hi
  rw [restoreHigh_eq]
  match i with
  | 0 => simp [← BitVec.getLsbD_eq_getElem, getLsbD_maskedByte, getLsbD_one_evictedBits]
  | i + 1 => simp [← BitVec.getLsbD_eq_getElem, getLsbD_maskedByte]

/-- The evicted bit 0 of the low byte comes back from bit 0 of B2. -/
theorem restoreLow_maskedByte (h l : Byte) : restoreLow (maskedByte l) (evictedBits h l) = l := by
  ext i hi
  rw [restoreLow_eq]
  match i with
  | 0 => simp [← BitVec.getLsbD_eq_getElem, getLsbD_maskedByte, getLsbD_zero_evictedBits]
  | i + 1 => simp [← BitVec.getLsbD_eq_getElem, getLsbD_maskedByte]

theorem highByte_append_lowByte (v : Word) : highByte v ++ lowByte v = v := by
  rw [highByte, lowByte, BitVec.extractLsb'_append_extractLsb'_eq_extractLsb' (by decide)]
  simp

/-- A codec frame is three bytes, from which the position is decoded (R87). -/
theorem encodePos_eq_and_decodePos (o : CodecOrder) (v : Word) :
    ∃ b0 b1 b2 : Byte, encodePos o v = [b0, b1, b2] ∧ decodePos o b0 b1 b2 = v := by
  cases o <;>
    exact ⟨_, _, _, rfl, by
      rw [decodePos, restoreHigh_maskedByte, restoreLow_maskedByte, highByte_append_lowByte]⟩

/-- `encode4` is twelve bytes, from which the four positions are decoded (R86, R87). -/
theorem encode4_eq_and_decode4 (o : CodecOrder) (p : Pos4) :
    ∃ r : Vector Byte 12, r.toList = encode4 o p ∧ decode4 o r = p := by
  obtain ⟨x0, x1, x2, hx, dx⟩ := encodePos_eq_and_decodePos o p.x
  obtain ⟨y0, y1, y2, hy, dy⟩ := encodePos_eq_and_decodePos o p.y
  obtain ⟨t0, t1, t2, ht, dt⟩ := encodePos_eq_and_decodePos o p.theta
  obtain ⟨f0, f1, f2, hf, df⟩ := encodePos_eq_and_decodePos o p.phi
  refine ⟨#v[x0, x1, x2, y0, y1, y2, t0, t1, t2, f0, f1, f2], ?_, ?_⟩
  · rw [encode4, hx, hy, ht, hf]
    rfl
  · simp [decode4, dx, dy, dt, df]

/-- Settles O26: the response is the position response of `current`. -/
theorem getPosAnswersCurrent : Obligations.GetPosAnswersCurrent := by
  intro s q
  obtain ⟨r, henc, hdec⟩ := encode4_eq_and_decode4 s.cfg.codecOrder s.motion.current
  refine ⟨rfl, r, ?_, henc, hdec⟩
  rw [henc]
  rfl

/-- Settles O27: the response is the position response of the endgoal. -/
theorem getTargetAnswersEndgoal : Obligations.GetTargetAnswersEndgoal := by
  intro s q hs
  rw [← hs.endgoal_eq]
  obtain ⟨r, henc, hdec⟩ := encode4_eq_and_decode4 s.cfg.codecOrder s.endgoal
  refine ⟨rfl, r, ?_, henc, hdec⟩
  rw [henc]
  rfl

/-! ### The commands without a response (R93, R113 to R117, R119) -/

/-- Settles O28: each homing command emits its own declared axis. -/
theorem homeCommandsEmitTheirOwnAxis : Obligations.HomeCommandsEmitTheirOwnAxis :=
  fun _ _ => ⟨rfl, rfl, rfl, rfl⟩

/-- Settles O29: both commands are an empty answer and nothing else. -/
theorem startAndStopChangeNothing : Obligations.StartAndStopChangeNothing :=
  fun _ _ => ⟨rfl, rfl, rfl, rfl⟩

/-- Settles O30: the movement queue is cleared, and a cleared queue is empty. -/
theorem abortDiscardsQueueOnly : Obligations.AbortDiscardsQueueOnly := by
  intro s q
  refine ⟨rfl, s.mq.clear, rfl, rfl, rfl, rfl, Fifo.contents_clear, ?_⟩
  rw [State.endgoal, if_pos Fifo.isEmpty_clear]

/-- An opcode byte that R61 does not list, 0x0D aside, is unassigned (R64). -/
theorem decodeOp_of_not_listed {op : Byte}
    (h : op ∉ [0x01, 0x02, 0x03, 0x04, 0x05, 0x06, 0x07, 0x08, 0x0F, 0x0D]) (o : CodecOrder) (q : Vector Byte 12) :
    decodeOp o op q = .unassigned op := by
  have hne : ∀ c ∈ [0x01, 0x02, 0x03, 0x04, 0x05, 0x06, 0x07, 0x08, 0x0F, 0x0D], op ≠ c := fun c hc heq => h (heq ▸ hc)
  rw [decodeOp, if_neg (hne opMoveAbs (by decide)), if_neg (hne opMoveRel (by decide)), if_neg (hne opGetPos (by decide)),
    if_neg (hne opHomeX (by decide)), if_neg (hne opHomeY (by decide)), if_neg (hne opStart (by decide)),
    if_neg (hne opStop (by decide)), if_neg (hne opAbort (by decide)), if_neg (hne opGetTarget (by decide)),
    if_neg (hne terminator (by decide))]

/-- Settles O32: an unassigned opcode is an empty answer and nothing else. -/
theorem unassignedOpcodesChangeNothing : Obligations.UnassignedOpcodesChangeNothing :=
  fun _ _ q h => ⟨decodeOp_of_not_listed h _ q, rfl⟩

end Sys2Proof.Machine

/-! The command decoder and encoder (R56 to R61, R64, R84 to R87): what the decoder makes of an opcode byte with and without
a payload, and from that the round trips of frames (O2) and of codec frames (O6), the bytes that a frame can hold (O4), how
much the decoder takes (O7), and the opcode map (O8). -/

namespace Sys2Proof

/-! ### The opcode byte of a command (R61, R64) -/

/-- The byte that selects a command: the first byte of its frame. -/
def Instr.opcode : Instr → Byte
  | .moveAbs _ => opMoveAbs
  | .moveRel _ => opMoveRel
  | .getPos => opGetPos
  | .homeX => opHomeX
  | .homeY => opHomeY
  | .start => opStart
  | .stop => opStop
  | .abort => opAbort
  | .getTarget => opGetTarget
  | .emptyFrame => terminator
  | .unassigned op => op

/-- The opcode bytes of R61, and 0x0D. -/
def listedOpcodes : List Byte := [0x01, 0x02, 0x03, 0x04, 0x05, 0x06, 0x07, 0x08, 0x0F, 0x0D]

/-- R64 names the unassigned bytes by ranges: they are the ones that R61 does not list, 0x0D aside. -/
theorem isUnassigned_iff_not_listed {op : Byte} : isUnassigned op = true ↔ op ∉ listedOpcodes := by
  simp only [isUnassigned, listedOpcodes, List.mem_cons, List.not_mem_nil, or_false, not_or, Bool.or_eq_true,
    Bool.and_eq_true, decide_eq_true_eq, beq_iff_eq]
  bv_omega

theorem isUnassigned_iff_ranges {op : Byte} :
    isUnassigned op = true ↔ op = 0x00 ∨ (0x09 ≤ op.toNat ∧ op.toNat ≤ 0x0C) ∨ op = 0x0E ∨ 0x10 ≤ op.toNat := by
  simp only [isUnassigned, Bool.or_eq_true, Bool.and_eq_true, decide_eq_true_eq, beq_iff_eq]
  bv_omega

theorem decodeOp_of_isUnassigned {op : Byte} (h : isUnassigned op = true) (o : CodecOrder) (q : Vector Byte 12) :
    decodeOp o op q = .unassigned op :=
  Machine.decodeOp_of_not_listed (isUnassigned_iff_not_listed.1 h) o q

/-- Whatever the decoder makes of an opcode byte is selected by that byte, and is `unassigned` only for a byte that R64
lists. -/
theorem opcode_and_wf_decodeOp (o : CodecOrder) (op : Byte) (q : Vector Byte 12) :
    (decodeOp o op q).opcode = op ∧ (decodeOp o op q).wf = true := by
  by_cases h : isUnassigned op = true
  · rw [decodeOp_of_isUnassigned h]
    exact ⟨rfl, h⟩
  · rw [isUnassigned_iff_not_listed, not_not] at h
    unfold listedOpcodes at h
    simp only [List.mem_cons, List.not_mem_nil, or_false] at h
    rcases h with rfl | rfl | rfl | rfl | rfl | rfl | rfl | rfl | rfl | rfl <;> exact ⟨rfl, rfl⟩

@[simp] theorem opcode_decodeOp (o : CodecOrder) (op : Byte) (q : Vector Byte 12) : (decodeOp o op q).opcode = op :=
  (opcode_and_wf_decodeOp o op q).1

theorem wf_decodeOp (o : CodecOrder) (op : Byte) (q : Vector Byte 12) : (decodeOp o op q).wf = true :=
  (opcode_and_wf_decodeOp o op q).2

theorem decodeOp_eq_unassigned_iff {o : CodecOrder} {op : Byte} {q : Vector Byte 12} :
    decodeOp o op q = .unassigned op ↔ isUnassigned op = true := by
  constructor
  · intro h
    have hwf := wf_decodeOp o op q
    rwa [h] at hwf
  · intro h
    exact decodeOp_of_isUnassigned h o q

/-- Settles O8: a command determines its opcode byte, and each listed byte decodes to its command. -/
theorem opcodeMapIsTotal : Obligations.OpcodeMapIsTotal := by
  intro o op q
  have hsel : ∀ {i : Instr} {c : Byte}, i.opcode = c → decodeOp o c q = i → (decodeOp o op q = i ↔ op = c) := by
    intro i c hc hdec
    constructor
    · intro h
      rw [← opcode_decodeOp o op q, h, hc]
    · intro h
      rw [h, hdec]
  refine ⟨hsel rfl rfl, hsel rfl rfl, hsel rfl rfl, hsel rfl rfl, hsel rfl rfl, hsel rfl rfl, hsel rfl rfl, hsel rfl rfl,
    hsel rfl rfl, hsel rfl rfl, ?_⟩
  rw [decodeOp_eq_unassigned_iff, isUnassigned_iff_ranges]

/-! ### The decoder on an opcode byte and what follows it (R57, R60) -/

theorem decode_of_no_payload {op : Byte} (h : payloadLength op ≠ 12) (o : CodecOrder) (rest : List Byte) :
    decode o (op :: rest) = .command (decodeOp o op (Vector.replicate 12 0)) rest := by
  simp only [decode, if_neg h]

/-- A vector of twelve bytes is its bytes written out. -/
theorem exists_bytes_eq (q : Vector Byte 12) : ∃ b0 b1 b2 b3 b4 b5 b6 b7 b8 b9 b10 b11 : Byte,
    q = #v[b0, b1, b2, b3, b4, b5, b6, b7, b8, b9, b10, b11] := by
  obtain ⟨⟨l⟩, hl⟩ := q
  match l, hl with
  | [b0, b1, b2, b3, b4, b5, b6, b7, b8, b9, b10, b11], _ =>
    exact ⟨b0, b1, b2, b3, b4, b5, b6, b7, b8, b9, b10, b11, rfl⟩

/-- Twelve payload bytes are taken whatever they are. -/
theorem decode_of_payload {op : Byte} (h : payloadLength op = 12) (o : CodecOrder) (q : Vector Byte 12)
    (rest : List Byte) : decode o (op :: (q.toList ++ rest)) = .command (decodeOp o op q) rest := by
  obtain ⟨b0, b1, b2, b3, b4, b5, b6, b7, b8, b9, b10, b11, rfl⟩ := exists_bytes_eq q
  simp [decode, h]

/-- Fewer than twelve are refused by name (log 8). -/
theorem decode_of_short_payload {op : Byte} (h : payloadLength op = 12) (o : CodecOrder) {bytes : List Byte}
    (hlen : bytes.length < 12) : decode o (op :: bytes) = .shortPayload op := by
  unfold decode
  simp only [if_pos h]
  split
  · simp at hlen
    omega
  · rfl

/-- A list of at least twelve bytes is a payload and what follows it. -/
theorem exists_payload_append {bytes : List Byte} (h : 12 ≤ bytes.length) :
    ∃ q : Vector Byte 12, bytes = q.toList ++ bytes.drop 12 := by
  have hlen : (bytes.take 12).toArray.size = 12 := by simp [h]
  exact ⟨⟨(bytes.take 12).toArray, hlen⟩, (List.take_append_drop 12 bytes).symm⟩

theorem payloadLength_eq_or (op : Byte) : payloadLength op = 12 ∨ payloadLength op = 0 := by
  unfold payloadLength
  split <;> simp

/-- Settles O7: the opcode byte alone decides between a payload of twelve bytes and none. -/
theorem decodeTakesOpcodeAndPayload : Obligations.DecodeTakesOpcodeAndPayload := by
  intro o op bytes
  refine ⟨rfl, ?_⟩
  rcases payloadLength_eq_or op with h | h
  · constructor
    · intro hlen
      rw [h] at hlen ⊢
      obtain ⟨q, hq⟩ := exists_payload_append hlen
      refine ⟨decodeOp o op q, ?_, wf_decodeOp o op q⟩
      rw [← decode_of_payload h, ← hq]
    · intro hlen
      exact decode_of_short_payload h o (h ▸ hlen)
  · constructor
    · intro _
      refine ⟨_, ?_, wf_decodeOp o op (Vector.replicate 12 0)⟩
      rw [h, List.drop_zero]
      exact decode_of_no_payload (by omega) o bytes
    · intro hlen
      omega

/-- Settles O1: each frame is the decoder's run on its bytes. -/
theorem specFramesDecode : Obligations.SpecFramesDecode := by
  unfold Obligations.SpecFramesDecode
  decide

/-! ### Decoding a command's frame (R56, R66) -/

theorem decode_frameF0 {op : Byte} (h : payloadLength op ≠ 12) (o : CodecOrder) (rest : List Byte) :
    decode o (frameF0 op ++ rest) = .command (decodeOp o op (Vector.replicate 12 0)) (terminator :: rest) :=
  decode_of_no_payload h o (terminator :: rest)

/-- The payload of a move command's frame decodes to its operand (R87). -/
theorem decode_frameF12 {op : Byte} (h : payloadLength op = 12) (o : CodecOrder) (p : Pos4) (rest : List Byte) :
    ∃ q, decode o (frameF12 o op p ++ rest) = .command (decodeOp o op q) (terminator :: rest) ∧ decode4 o q = p := by
  obtain ⟨q, hq, hdec⟩ := Machine.encode4_eq_and_decode4 o p
  refine ⟨q, ?_, hdec⟩
  rw [frameF12, ← hq, ← decode_of_payload h]
  simp

theorem payloadLength_of_isUnassigned {op : Byte} (h : isUnassigned op = true) : payloadLength op = 0 := by
  rw [isUnassigned_iff_not_listed] at h
  have h1 : op ≠ opMoveAbs := by
    rintro rfl
    exact h (by decide)
  have h2 : op ≠ opMoveRel := by
    rintro rfl
    exact h (by decide)
  rw [payloadLength, if_neg (by simp [h1, h2])]

/-- Settles O2: a move command's payload is decoded back, and every other command is its opcode byte alone. -/
theorem decodeOfEncode : Obligations.DecodeOfEncode := by
  intro o i rest hwf
  cases i with
  | moveAbs p =>
    obtain ⟨q, hrun, hp⟩ := decode_frameF12 (op := opMoveAbs) rfl o p rest
    rw [encode, hrun, ← hp]
    rfl
  | moveRel d =>
    obtain ⟨q, hrun, hd⟩ := decode_frameF12 (op := opMoveRel) rfl o d rest
    rw [encode, hrun, ← hd]
    rfl
  | unassigned op =>
    have hlen := payloadLength_of_isUnassigned hwf
    rw [encode, decode_frameF0 (by omega), decodeOp_of_isUnassigned hwf]
    rfl
  | getPos => exact decode_frameF0 (op := opGetPos) (by decide) o rest
  | homeX => exact decode_frameF0 (op := opHomeX) (by decide) o rest
  | homeY => exact decode_frameF0 (op := opHomeY) (by decide) o rest
  | start => exact decode_frameF0 (op := opStart) (by decide) o rest
  | stop => exact decode_frameF0 (op := opStop) (by decide) o rest
  | abort => exact decode_frameF0 (op := opAbort) (by decide) o rest
  | getTarget => exact decode_frameF0 (op := opGetTarget) (by decide) o rest
  | emptyFrame => exact decode_of_no_payload (op := terminator) (by decide) o rest

/-! ### The bytes of a frame (R59) -/

theorem ne_terminator_of_even {b : Byte} (h : b.getLsbD 0 = false) : b ≠ 0x0D := by
  rintro rfl
  exact absurd h (by decide)

/-- Six zeros above two bits. -/
theorem le_three_iff_extractLsb' {b : Byte} : b ≤ 0x03 ↔ b.extractLsb' 2 6 = 0#6 := by
  rw [← BitVec.toNat_inj, BitVec.extractLsb'_toNat, Nat.shiftRight_eq_div_pow]
  have hlt := b.isLt
  have hle : b ≤ 0x03 ↔ b.toNat ≤ 3 := Iff.rfl
  rw [hle]
  simp
  omega

theorem evictedBits_le_three (h l : Byte) : evictedBits h l ≤ 0x03 :=
  le_three_iff_extractLsb'.2 (extractLsb'_evictedBits h l)

theorem ne_terminator_of_le_three {b : Byte} (h : b ≤ 0x03) : b ≠ 0x0D := by
  rintro rfl
  exact absurd h (by decide)

theorem terminator_notMem_encodePos (o : CodecOrder) (v : Word) : terminator ∉ encodePos o v := by
  have hmask : ∀ b, terminator ≠ maskedByte b := fun b => (ne_terminator_of_even (getLsbD_zero_maskedByte b)).symm
  have hevicted : terminator ≠ evictedBits (highByte v) (lowByte v) :=
    (ne_terminator_of_le_three (evictedBits_le_three _ _)).symm
  cases o <;> simp [encodePos, hmask, hevicted]

theorem terminator_notMem_encode4 (o : CodecOrder) (p : Pos4) : terminator ∉ encode4 o p := by
  simp [encode4, terminator_notMem_encodePos]

theorem terminator_notMem_dropLast_frameF12 (o : CodecOrder) {op : Byte} (h : op ≠ terminator) (p : Pos4) :
    terminator ∉ (frameF12 o op p).dropLast := by
  rw [frameF12, List.dropLast_concat]
  simp [h.symm, terminator_notMem_encode4]

theorem ne_terminator_of_isUnassigned {op : Byte} (h : isUnassigned op = true) : op ≠ terminator := by
  rintro rfl
  exact absurd h (by decide)

theorem terminator_notMem_dropLast_encode (o : CodecOrder) {i : Instr} (h : i.wf = true) :
    terminator ∉ (encode o i).dropLast := by
  cases i with
  | moveAbs p => exact terminator_notMem_dropLast_frameF12 o (by decide) p
  | moveRel d => exact terminator_notMem_dropLast_frameF12 o (by decide) d
  | unassigned op => simpa [encode, frameF0] using (ne_terminator_of_isUnassigned h).symm
  | getPos => simp [encode, frameF0, opGetPos, terminator]
  | homeX => simp [encode, frameF0, opHomeX, terminator]
  | homeY => simp [encode, frameF0, opHomeY, terminator]
  | start => simp [encode, frameF0, opStart, terminator]
  | stop => simp [encode, frameF0, opStop, terminator]
  | abort => simp [encode, frameF0, opAbort, terminator]
  | getTarget => simp [encode, frameF0, opGetTarget, terminator]
  | emptyFrame => simp [encode]

/-- Settles O4: masked bytes are even, the evicted bits are at most 3, and 0x0D is neither. -/
theorem framesNeverHoldTerminatorAsData : Obligations.FramesNeverHoldTerminatorAsData := by
  constructor
  · intro o v
    have heven := getLsbD_zero_maskedByte
    have hsmall := evictedBits_le_three (highByte v) (lowByte v)
    cases o <;>
      exact ⟨_, _, _, rfl, heven _, heven _, hsmall, ne_terminator_of_even (heven _), ne_terminator_of_even (heven _),
        ne_terminator_of_le_three hsmall⟩
  · intro o i h
    exact terminator_notMem_dropLast_encode o h

/-! ### The codec's round trips (R87) -/

theorem highByte_append (h l : Byte) : highByte (h ++ l) = h := by
  rw [highByte, BitVec.extractLsb'_append_eq_left]

theorem lowByte_append (h l : Byte) : lowByte (h ++ l) = l := by
  rw [lowByte, BitVec.extractLsb'_append_eq_right]

/-- Masking a restored data byte gives an even data byte back. -/
theorem maskedByte_or_setWidth {b : Byte} (h : b.getLsbD 0 = false) (x : BitVec 1) :
    maskedByte (b ||| x.setWidth 8) = b := by
  ext i hi
  rw [← BitVec.getLsbD_eq_getElem, ← BitVec.getLsbD_eq_getElem, getLsbD_maskedByte]
  match i with
  | 0 => rw [h]; rfl
  | i + 1 => simp

theorem evictedBits_restore {b0 b1 b2 : Byte} (h0 : b0.getLsbD 0 = false) (h1 : b1.getLsbD 0 = false)
    (h2 : b2.extractLsb' 2 6 = 0#6) : evictedBits (restoreHigh b0 b2) (restoreLow b1 b2) = b2 := by
  ext i hi
  rw [← BitVec.getLsbD_eq_getElem, getLsbD_evictedBits, restoreHigh_eq, restoreLow_eq, ← BitVec.getLsbD_eq_getElem,
    BitVec.getLsbD_or, BitVec.getLsbD_or, h0, h1]
  match i with
  | 0 => simp
  | 1 => simp
  | i + 2 =>
    have hlt : i < 6 := by omega
    have hbit : b2.getLsbD (i + 2) = false := by simpa [hlt, Nat.add_comm 2 i] using congrArg (·.getLsbD i) h2
    simpa using hbit.symm

/-- Both orders send the same three bytes, the data bytes in the order of R58. -/
theorem encodePos_decodePos_iff (o : CodecOrder) (b0 b1 b2 : Byte) :
    encodePos o (decodePos o b0 b1 b2) = [b0, b1, b2] ↔
      b0.getLsbD 0 = false ∧ b1.getLsbD 0 = false ∧ b2.extractLsb' 2 6 = 0#6 := by
  constructor
  · cases o <;>
    · intro h
      simp only [encodePos, List.cons.injEq, and_true] at h
      obtain ⟨hb0, hb1, hb2⟩ := h
      rw [← hb0, ← hb1, ← hb2]
      exact ⟨getLsbD_zero_maskedByte _, getLsbD_zero_maskedByte _, extractLsb'_evictedBits _ _⟩
  · rintro ⟨h0, h1, h2⟩
    cases o
    · rw [encodePos, decodePos, highByte_append, lowByte_append, evictedBits_restore h0 h1 h2, restoreHigh_eq,
        restoreLow_eq, maskedByte_or_setWidth h0, maskedByte_or_setWidth h1]
    · rw [encodePos, decodePos, highByte_append, lowByte_append, evictedBits_restore h1 h0 h2, restoreHigh_eq,
        restoreLow_eq, maskedByte_or_setWidth h0, maskedByte_or_setWidth h1]

/-- Settles O6: the way there is the round trip of R87; the way back needs what every encoded frame has. -/
theorem codecRoundTrip : Obligations.CodecRoundTrip := by
  constructor
  · intro o v b0 b1 b2 h
    obtain ⟨c0, c1, c2, henc, hdec⟩ := Machine.encodePos_eq_and_decodePos o v
    rw [h] at henc
    cases henc
    exact hdec
  · intro o b0 b1 b2
    exact encodePos_decodePos_iff o b0 b1 b2

end Sys2Proof

/-! The commands as effect and response (R106, R110 to R119): from the two, the frame of all eleven commands (O33), the
shape of every response (O34), and the empty frame (O31). -/

namespace Sys2Proof.Machine

variable {s t : State} {i : Instr} {b : Byte}

/-! ### What a dispatched command does and answers (R106) -/

/-- `Effect(op, pbuf)` on the state, before the response is set. -/
def commandEffect (i : Instr) (s : State) : State :=
  match i with
  | .moveAbs p => (enqueueAbsolute s p).2
  | .moveRel d => (enqueueRelative s d).2
  | .homeX => s.emit (.home .x)
  | .homeY => s.emit (.home .y)
  | .abort => abortQueue s
  | .getPos | .start | .stop | .getTarget | .emptyFrame | .unassigned _ => s

/-- The response of a dispatched command (R62). -/
def commandResponse (i : Instr) (s : State) : List Byte :=
  match i with
  | .moveAbs p => moveResponse respMoveAbs (enqueueAbsolute s p).1
  | .moveRel d => moveResponse respMoveRel (enqueueRelative s d).1
  | .getPos => positionResponse s.cfg s.currentPosition
  | .getTarget => positionResponse s.cfg s.targetPosition
  | .homeX | .homeY | .start | .stop | .abort | .emptyFrame | .unassigned _ => []

/-- Every command but the empty frame ends as R106 says. -/
theorem exec_of_ne_emptyFrame (hi : i ≠ .emptyFrame) (s : State) :
    exec i s = .next ((commandEffect i s).answer (commandResponse i s)) := by
  cases i with
  | emptyFrame => exact absurd rfl hi
  | _ => rfl

theorem exec_emptyFrame (s : State) : exec .emptyFrame s = .next (s.goto .spin) := rfl

/-- The movement queue after a move's effect: as it was when full, else with one waypoint pushed. -/
theorem enqueueAbsolute_mq_cases (s : State) (p : Pos4) :
    (enqueueAbsolute s p).2.mq = s.mq ∨ s.mq.push s.cfg.nMq p = some (enqueueAbsolute s p).2.mq := by
  rcases enqueueAbsolute_cases s p with ⟨-, hrun⟩ | ⟨mq, hpush, hrun⟩
  · rw [hrun]
    exact .inl rfl
  · rw [hrun]
    exact .inr hpush

/-- What a command does to the movement queue: nothing, a move's push, or ABORT's clear. -/
theorem commandEffect_mq_cases (i : Instr) (s : State) :
    (commandEffect i s).mq = s.mq ∨
      (((∃ p, i = .moveAbs p) ∨ ∃ d, i = .moveRel d) ∧
        ∃ w, s.mq.push s.cfg.nMq w = some (commandEffect i s).mq) ∨
      (i = .abort ∧ (commandEffect i s).mq = s.mq.clear) := by
  cases i with
  | moveAbs p => exact (enqueueAbsolute_mq_cases s p).imp id fun h => .inl ⟨.inl ⟨p, rfl⟩, p, h⟩
  | moveRel d => exact (enqueueAbsolute_mq_cases s _).imp id fun h => .inl ⟨.inr ⟨d, rfl⟩, _, h⟩
  | abort => exact .inr (.inr ⟨rfl, rfl⟩)
  | _ => exact .inl rfl

theorem enqueueAbsolute_frame (s : State) (p : Pos4) :
    (enqueueAbsolute s p).2 = { s with mq := (enqueueAbsolute s p).2.mq } := by
  rcases enqueueAbsolute_cases s p with ⟨-, hrun⟩ | ⟨mq, -, hrun⟩ <;> rw [hrun]

/-- An effect writes the movement queue and the emissions only (R110 to R119). -/
theorem commandEffect_frame (i : Instr) (s : State) :
    commandEffect i s =
      { s with mq := (commandEffect i s).mq, emitted := (commandEffect i s).emitted } := by
  cases i with
  | moveAbs p => rw [commandEffect, enqueueAbsolute_frame]
  | moveRel d => rw [commandEffect, enqueueRelative, enqueueAbsolute_frame]
  | _ => rfl

/-- Only a homing command emits. -/
theorem commandEffect_emitted (hx : i ≠ .homeX) (hy : i ≠ .homeY) (s : State) :
    (commandEffect i s).emitted = s.emitted := by
  cases i with
  | homeX => exact absurd rfl hx
  | homeY => exact absurd rfl hy
  | moveAbs p => rw [commandEffect, enqueueAbsolute_frame]
  | moveRel d => rw [commandEffect, enqueueRelative, enqueueAbsolute_frame]
  | _ => rfl

/-- The movement queue and the emissions of a state in which a command was performed are those of its effect. -/
theorem exec_mq_emitted (h : exec i s = .next t) :
    t.mq = (commandEffect i s).mq ∧ t.emitted = (commandEffect i s).emitted := by
  by_cases hi : i = .emptyFrame
  · subst hi
    cases h
    exact ⟨rfl, rfl⟩
  · rw [exec_of_ne_emptyFrame hi] at h
    cases h
    exact ⟨rfl, rfl⟩

theorem exec_keeps_operands (h : exec i s = .next t) :
    t.ctrl.op = s.ctrl.op ∧ t.ctrl.pbuf = s.ctrl.pbuf ∧ t.ctrl.pcount = s.ctrl.pcount := by
  by_cases hi : i = .emptyFrame
  · subst hi
    cases h
    exact ⟨rfl, rfl, rfl⟩
  · rw [exec_of_ne_emptyFrame hi, commandEffect_frame] at h
    cases h
    exact ⟨rfl, rfl, rfl⟩

/-- Settles O33: a command writes the movement queue, the emissions and the end of EXEC only, and the queue by a push at
`mq_head` or by ABORT's clear. -/
theorem commandsChangeOnlyTheirOwnState : Obligations.CommandsChangeOnlyTheirOwnState := by
  intro i s t hs h
  obtain ⟨-, -, -, -, -, hwf, -⟩ := hs
  obtain ⟨hmq, hemitted⟩ := exec_mq_emitted h
  obtain ⟨hop, hpbuf, hpcount⟩ := exec_keeps_operands h
  have hqueue := commandEffect_mq_cases i s
  rw [← hmq] at hqueue
  obtain ⟨mq, out, k, hrun⟩ := exec_next i s
  rw [h] at hrun
  obtain rfl : t = _ := Host.Outcome.next.inj hrun
  refine ⟨rfl, rfl, rfl, rfl, rfl, rfl, hop, hpbuf, hpcount, rfl, rfl, fun hne => ?_, fun k hk => ?_, fun habort => ?_,
    fun hne => ?_⟩
  · rcases hqueue with heq | ⟨hmove | hmove, -⟩ | ⟨habort, -⟩
    · exact absurd heq hne
    · exact .inl hmove
    · exact .inr (.inl hmove)
    · exact .inr (.inr habort)
  · rcases hqueue with heq | ⟨-, w, hpush⟩ | ⟨-, hclear⟩
    · rw [heq]
    · obtain ⟨-, hmem, -, -⟩ := Fifo.push_eq_some hpush
      rw [hmem, Memory.read_write hwf, if_neg hk]
    · rw [hclear]
      rfl
  · rcases hqueue with heq | ⟨⟨p, hp⟩ | ⟨d, hd⟩, -⟩ | ⟨-, hclear⟩
    · rw [heq]
    · rw [hp] at habort
      cases habort
    · rw [hd] at habort
      cases habort
    · rw [hclear]
      rfl
  · by_contra hhome
    rw [not_or] at hhome
    exact hne (hemitted.trans (commandEffect_emitted hhome.1 hhome.2 s))

/-! ### Responses (R62, R63) -/

/-- A response opcode and bytes that are no terminator, then the terminator. -/
theorem frame_shape {bytes : List Byte} (h : terminator ∉ bytes) :
    (bytes ++ [terminator]).getLast? = some 0x0D ∧ (0x0D : Byte) ∉ (bytes ++ [terminator]).dropLast := by
  rw [List.getLast?_concat, List.dropLast_concat]
  exact ⟨rfl, h⟩

theorem terminator_notMem_moveResponse {opcode : Byte} (h : terminator ≠ opcode) (ok : Bool) :
    terminator ∉ [opcode, statusByte ok] := by
  have hstatus : terminator ≠ statusByte ok := by cases ok <;> decide
  simp [h, hstatus]

/-- A response that is not empty is bytes that are no terminator, then the terminator. -/
theorem commandResponse_eq_nil_or_frame (i : Instr) (s : State) :
    commandResponse i s = [] ∨ ∃ bytes, terminator ∉ bytes ∧ commandResponse i s = bytes ++ [terminator] := by
  have hposition : ∀ p, terminator ∉ respPosition :: encode4 s.cfg.codecOrder p := fun p =>
    List.not_mem_cons_of_ne_of_not_mem (by decide) (terminator_notMem_encode4 _ p)
  cases i with
  | moveAbs p => exact .inr ⟨_, terminator_notMem_moveResponse (by decide) _, rfl⟩
  | moveRel d => exact .inr ⟨_, terminator_notMem_moveResponse (by decide) _, rfl⟩
  | getPos => exact .inr ⟨_, hposition _, rfl⟩
  | getTarget => exact .inr ⟨_, hposition _, rfl⟩
  | _ => exact .inl rfl

theorem length_positionResponse (c : Config) (p : Pos4) : (positionResponse c p).length = 14 := by
  simp [positionResponse, encode4, Laws.Frame.length_encodePos]

/-- A response fits the response register of R30. -/
theorem length_commandResponse_le (i : Instr) (s : State) : (commandResponse i s).length ≤ 14 := by
  cases i with
  | getPos => exact (length_positionResponse _ _).le
  | getTarget => exact (length_positionResponse _ _).le
  | _ => simp [commandResponse, moveResponse]

/-- Settles O34: the response set at the end of EXEC is the command's. -/
theorem responsesAreFrames : Obligations.ResponsesAreFrames := by
  intro i s t hi h
  rw [exec_of_ne_emptyFrame hi] at h
  cases h
  refine ⟨rfl, rfl, fun hne => ?_, ?_⟩
  · rw [State.answer_ctrl] at hne ⊢
    rcases commandResponse_eq_nil_or_frame i s with hnil | ⟨bytes, hbytes, hframe⟩
    · exact absurd hnil hne
    · rw [hframe]
      exact frame_shape hbytes
  · cases i with
    | getPos => exact length_positionResponse _ _
    | getTarget => exact length_positionResponse _ _
    | _ => rfl

/-- Settles O31: 0x0D decodes to the empty frame, whose meaning is the way to SPIN. -/
theorem emptyFrameOnlyGoesToSpin : Obligations.EmptyFrameOnlyGoesToSpin :=
  fun s _ => ⟨rfl, exec_emptyFrame s⟩

end Sys2Proof.Machine

/-! One turn of the controller in PAYLOAD, EXEC, RESPOND and DISCARD (R105 to R108), and in any state while it holds or where
the spec rules the state out: from that O13, O17, O18, O19 and O54. -/

namespace Sys2Proof.Machine

variable {s t : State} {b : Byte}

/-! ### A step that is the controller's turn (R29, R126) -/

theorem step_of_controllerTurn (he : s.nextEvent = .controller) : step s = controllerTurn s.advance := step_of_event he

theorem controllerTurn_of_poll (hc : s.ctrl.ctl = .poll) : controllerTurn s = .next (pollTransition s) := by
  simp only [controllerTurn, hc]

theorem controllerTurn_of_readOp (hc : s.ctrl.ctl = .readOp) : controllerTurn s = readOpTransition s := by
  simp only [controllerTurn, hc]

theorem controllerTurn_of_payload (hc : s.ctrl.ctl = .payload) : controllerTurn s = payloadTransition s := by
  simp only [controllerTurn, hc]

theorem controllerTurn_of_exec (hc : s.ctrl.ctl = .exec) : controllerTurn s = execTransition s := by
  simp only [controllerTurn, hc]

theorem controllerTurn_of_respond (hc : s.ctrl.ctl = .respond) : controllerTurn s = respondTransition s := by
  simp only [controllerTurn, hc]

theorem controllerTurn_of_discard (hc : s.ctrl.ctl = .discard) : controllerTurn s = .next (discardTransition s) := by
  simp only [controllerTurn, hc]

theorem controllerTurn_of_spin (hc : s.ctrl.ctl = .spin) : controllerTurn s = .next (spinTransition s) := by
  simp only [controllerTurn, hc]

/-! ### Holding (R80, R81) -/

theorem readOpTransition_of_empty (h : s.rx.isEmpty = true) : readOpTransition s = .next s := by
  simp only [readOpTransition, State.readByte_eq_none_iff.2 h]

theorem payloadTransition_of_empty (hk : s.ctrl.pcount < 12) (h : s.rx.isEmpty = true) :
    payloadTransition s = .next s := by
  simp only [payloadTransition, if_pos hk, State.readByte_eq_none_iff.2 h]

theorem discardTransition_of_empty (h : s.rx.isEmpty = true) : discardTransition s = s := by
  simp only [discardTransition, State.readByte_eq_none_iff.2 h]

theorem respondTransition_of_full (hk : s.ctrl.ridx < s.ctrl.resp.length) (h : s.tx.isFull s.cfg.nTx = true) :
    respondTransition s = .next s := by
  simp only [respondTransition, if_neg hk.ne, List.getElem?_eq_getElem hk, State.writeByte_eq_none_iff.2 h]

/-- Settles O13: a read with the RX FIFO empty and a write with the TX FIFO full hold. -/
theorem holdingControllerChangesNothing : Obligations.HoldingControllerChangesNothing := by
  intro s he
  rw [step_of_controllerTurn he]
  constructor
  · rintro (hc | ⟨hc, hk⟩ | hc) hempty
    · rw [controllerTurn_of_readOp (by simpa using hc), readOpTransition_of_empty (by simpa using hempty)]
    · rw [controllerTurn_of_payload (by simpa using hc),
        payloadTransition_of_empty (by simpa using hk) (by simpa using hempty)]
    · rw [controllerTurn_of_discard (by simpa using hc), discardTransition_of_empty (by simpa using hempty)]
  · intro hc hk hfull
    rw [controllerTurn_of_respond (by simpa using hc),
      respondTransition_of_full (by simpa using hk) (by simpa using hfull)]

/-! ### PAYLOAD (R105) -/

theorem payloadTransition_of_readByte (hk : s.ctrl.pcount < 12) (h : s.readByte = some (b, t)) :
    payloadTransition s = .next { t with ctrl := { s.ctrl with
      pbuf := s.ctrl.pbuf.setIfInBounds s.ctrl.pcount b
      pcount := s.ctrl.pcount + 1
      ctl := if s.ctrl.pcount + 1 = 12 then .exec else s.ctrl.ctl } } := by
  rcases payloadTransition_cases s with ⟨hstop, -⟩ | ⟨-, hempty, -⟩ | ⟨c, u, -, hread, hrun⟩
  · omega
  · rw [State.readByte_eq_none_iff.2 hempty] at h
    cases h
  · rw [h] at hread
    cases hread
    exact hrun

/-- Settles O17: the byte read goes to `pbuf[pcount]`. -/
theorem payloadIsReadBlind : Obligations.PayloadIsReadBlind := by
  intro s b rest hs hl he hctl hk hc
  obtain ⟨-, hok, -, -⟩ := hs
  obtain ⟨rx, hpop, hrest, hread⟩ :=
    State.readByte_of_contents (s := s.advance) (b := b) (by simpa using hok) hl.advance (by simpa using hc)
  rw [State.advance_cfg] at hrest hpop
  rw [State.advance_rx] at hpop
  have hrun := payloadTransition_of_readByte (by simpa using hk) hread
  rw [← controllerTurn_of_payload (by simpa using hctl), ← step_of_controllerTurn he] at hrun
  simp only [State.advance_ctrl, State.advance_rxLines, hctl] at hrun
  obtain ⟨-, -, rfl⟩ := Fifo.pop_eq_some hpop
  refine ⟨_, _, hrun, hrest, rfl, rfl, fun j => ?_⟩
  simp [Vector.getElem_setIfInBounds, eq_comm]

/-! ### EXEC (R106) -/

theorem execTransition_of_ne_terminator (h : s.ctrl.op ≠ terminator) :
    execTransition s = exec (decodeOp s.cfg.codecOrder s.ctrl.op s.ctrl.pbuf) s := by
  rw [execTransition, if_neg h]

/-- A command without payload ignores `pbuf`. -/
theorem decodeOp_of_no_payload {op : Byte} (h : payloadLength op ≠ 12) (o : CodecOrder) (q q' : Vector Byte 12) :
    decodeOp o op q = decodeOp o op q' := by
  have hne : ¬ (op = opMoveAbs ∨ op = opMoveRel) := fun hmove => h (by rw [payloadLength, if_pos hmove])
  rw [not_or] at hne
  simp only [decodeOp, if_neg hne.1, if_neg hne.2]

/-- The decoder's view of an opcode byte followed by `pbuf` is what EXEC performs. -/
theorem decode_opcode_pbuf (o : CodecOrder) (op : Byte) (q : Vector Byte 12) :
    ∃ rest, decode o (op :: q.toList) = .command (decodeOp o op q) rest := by
  by_cases h : payloadLength op = 12
  · have hrun := decode_of_payload h o q []
    rw [List.append_nil] at hrun
    exact ⟨_, hrun⟩
  · rw [decodeOp_of_no_payload h o q (Vector.replicate 12 0)]
    exact ⟨_, decode_of_no_payload h o q.toList⟩

theorem readOpTransition_of_terminator (h : s.readByte = some (terminator, t)) :
    readOpTransition s = exec .emptyFrame { t with ctrl := { t.ctrl with op := terminator, pcount := 0 } } := by
  simp only [readOpTransition, h]
  rfl

/-- Settles O18: EXEC performs what the decoder gives, and READ_OP the empty frame. -/
theorem stepRunsDecodedCommand : Obligations.StepRunsDecodedCommand := by
  constructor
  · intro s i rest he hc hop hdec
    obtain ⟨rest', hrun⟩ := decode_opcode_pbuf s.cfg.codecOrder s.ctrl.op s.ctrl.pbuf
    rw [hdec] at hrun
    cases hrun
    refine ⟨wf_decodeOp _ _ _, ?_⟩
    rw [step_of_controllerTurn he, controllerTurn_of_exec (by simpa using hc),
      execTransition_of_ne_terminator (by simpa using hop), State.advance_cfg, State.advance_ctrl]
  · intro s t he hc hread
    rw [step_of_readOp he hc, readOpTransition_of_terminator hread]

/-! ### RESPOND (R107) -/

theorem respondTransition_of_over (h : s.ctrl.ridx = s.ctrl.resp.length) :
    respondTransition s = .next (s.goto .discard) := by
  rw [respondTransition, if_pos h]

theorem respondTransition_of_push {tx : Fifo Byte} (hb : s.ctrl.resp[s.ctrl.ridx]? = some b)
    (hpush : s.tx.push s.cfg.nTx b = some tx) :
    respondTransition s =
      .next { s with tx := tx, txie := true, ctrl := { s.ctrl with ridx := s.ctrl.ridx + 1 } } := by
  have hlt : s.ctrl.ridx < s.ctrl.resp.length := (List.getElem?_eq_some_iff.1 hb).1
  simp only [respondTransition, if_neg hlt.ne, hb, State.writeByte_of_push hpush]

/-- Settles O19: the next byte of the response is pushed, which writes the slot at `tx_head` alone. -/
theorem respondWritesResponseInOrder : Obligations.RespondWritesResponseInOrder := by
  intro s hs he hc
  obtain ⟨-, -, hok, -⟩ := hs
  rw [step_of_controllerTurn he, controllerTurn_of_respond (by simpa using hc)]
  constructor
  · intro hover
    rw [respondTransition_of_over (by simpa using hover), State.goto, State.advance_ctrl]
  · intro b hb hfree
    obtain ⟨tx, hpush⟩ := Fifo.push_isSome_of_not_full (x := b) hfree
    have hcontents := hok.contents_push hpush
    have hrun := respondTransition_of_push (s := s.advance) (by simpa using hb) (by simpa using hpush)
    rw [State.advance_ctrl] at hrun
    obtain ⟨-, hmem, -, htail⟩ := Fifo.push_eq_some hpush
    obtain ⟨-, -, hwf, -⟩ := hok
    refine ⟨tx, hrun, hcontents, htail, fun i => ?_⟩
    rw [hmem, Memory.read_write hwf]

/-! ### States that the spec rules out (log 9) -/

theorem payloadTransition_of_past (h : 12 ≤ s.ctrl.pcount) : payloadTransition s = .fault .payloadIndex := by
  rw [payloadTransition, if_neg h.not_gt]

theorem respondTransition_of_past (h : s.ctrl.resp.length < s.ctrl.ridx) :
    respondTransition s = .fault .responseIndex := by
  simp only [respondTransition, if_neg h.ne', List.getElem?_eq_none_iff.2 h.le]

theorem execTransition_of_terminator (h : s.ctrl.op = terminator) : execTransition s = .fault .terminatorAtExec := by
  rw [execTransition, if_pos h]

/-- Settles O54: each of the three transitions answers its fault. -/
theorem excludedStatesStop : Obligations.ExcludedStatesStop := by
  intro s he
  rw [step_of_controllerTurn he]
  refine ⟨fun hc hk => ?_, fun hc hk => ?_, fun hc hop => ?_⟩
  · rw [controllerTurn_of_payload (by simpa using hc), payloadTransition_of_past (by simpa using hk)]
  · rw [controllerTurn_of_respond (by simpa using hc), respondTransition_of_past (by simpa using hk)]
  · rw [controllerTurn_of_exec (by simpa using hc), execTransition_of_terminator (by simpa using hop)]

end Sys2Proof.Machine

/-! The handlers and the schedule (R31, R50, R77, R78, R98, R101, R125 to R128): what each handler reads and writes, and from
that which agent changes what in a step (O37, O39 to O41, O43 to O45) and that the handlers commute (O42). -/

namespace Sys2Proof.Machine

variable {s t : State} {b : Byte}

/-! ### Events that are not enabled (R126) -/

theorem timerHandler_of_disarmed (h : s.motion.timerArmed = false) : timerHandler s = s := by
  simp [timerHandler, h]

theorem txHandler_of_disabled (h : s.txie = false) : txHandler s = s := by
  simp [txHandler, h]

/-- Settles O37: a handler that is not enabled leaves the state with the event taken off. -/
theorem disabledHandlersChangeNothing : Obligations.DisabledHandlersChangeNothing := by
  intro s
  constructor
  · intro he hoff
    have hstep : step s = .next (timerHandler s.advance) := step_of_event he
    rw [hstep, timerHandler_of_disarmed (by simpa using hoff)]
  · intro he hoff
    have hstep : step s = .next (txHandler s.advance) := step_of_event he
    rw [hstep, txHandler_of_disabled (by simpa using hoff)]

/-- Settles O45: a step is `nextEvent` run on `advance`. -/
theorem nextEventIsFixedOrFree : Obligations.NextEventIsFixedOrFree := by
  intro s
  constructor
  · intro e es h
    rw [step, State.nextEvent_cons h, State.advance_cons h]
  · intro h
    simp only [step, State.nextEvent, State.advance, h]

/-! ### What each handler writes (R128) -/

/-- The RX handler reads and writes the RX FIFO and the line counter only. -/
theorem rxHandler_congr (hcfg : t.cfg = s.cfg) (hrx : t.rx = s.rx) (hlines : t.rxLines = s.rxLines) (b : Byte) :
    rxHandler b t = { t with rx := (rxHandler b s).rx, rxLines := (rxHandler b s).rxLines } := by
  rw [rxHandler, hcfg, hrx, hlines, rxHandler]
  split
  · rw [← hcfg, ← hrx, ← hlines]
  · rfl

theorem rxHandler_frame (b : Byte) (s : State) :
    rxHandler b s = { s with rx := (rxHandler b s).rx, rxLines := (rxHandler b s).rxLines } :=
  rxHandler_congr rfl rfl rfl b

theorem txHandler_frame (s : State) :
    txHandler s =
      { s with tx := (txHandler s).tx, txie := (txHandler s).txie, emitted := (txHandler s).emitted } := by
  rcases txHandler_cases s with ⟨-, hrun⟩ | ⟨-, -, hrun⟩ | ⟨b, tx, -, -, hrun⟩
  · rw [hrun]
  · rw [hrun]
  · rw [hrun, State.emit]

theorem timerHandler_frame (s : State) :
    timerHandler s = { s with motion := (timerHandler s).motion, emitted := (timerHandler s).emitted } := by
  rcases timerHandler_cases s with ⟨-, hrun⟩ | ⟨-, -, hrun⟩ | ⟨-, -, hrun⟩
  · rw [hrun]
  · rw [hrun]
  · rw [hrun, stepTick]

/-- Settles O40: each handler's frame, on the state with the event taken off. -/
theorem handlersLeaveControllerAlone : Obligations.HandlersLeaveControllerAlone := by
  intro s t h
  refine ⟨fun b he => ?_, fun he => ?_, fun he => ?_⟩ <;> rw [step_of_event he] at h <;> cases h
  · exact rxHandler_frame b _
  · exact txHandler_frame _
  · exact timerHandler_frame _

/-! ### The handlers commute (R127) -/

theorem txHandler_withRx (s : State) (rx : Fifo Byte) (n : Nat) :
    txHandler { s with rx := rx, rxLines := n } = { txHandler s with rx := rx, rxLines := n } := by
  unfold txHandler
  dsimp only
  split
  · split <;> rfl
  · rfl

theorem timerHandler_withRx (s : State) (rx : Fifo Byte) (n : Nat) :
    timerHandler { s with rx := rx, rxLines := n } = { timerHandler s with rx := rx, rxLines := n } := by
  unfold timerHandler
  dsimp only
  split
  · split <;> rfl
  · rfl

theorem txHandler_rxHandler (b : Byte) (s : State) : txHandler (rxHandler b s) = rxHandler b (txHandler s) := by
  have hkeeps := txHandler_frame s
  rw [rxHandler_frame b s, txHandler_withRx, rxHandler_congr (s := s) (t := txHandler s)]
  · rw [hkeeps]
  · rw [hkeeps]
  · rw [hkeeps]

theorem timerHandler_rxHandler (b : Byte) (s : State) : timerHandler (rxHandler b s) = rxHandler b (timerHandler s) := by
  have hkeeps := timerHandler_frame s
  rw [rxHandler_frame b s, timerHandler_withRx, rxHandler_congr (s := s) (t := timerHandler s)]
  · rw [hkeeps]
  · rw [hkeeps]
  · rw [hkeeps]

theorem sentBytes_append (new old : List Emission) : sentBytes (new ++ old) = sentBytes old ++ sentBytes new := by
  simp [sentBytes]

theorem pulseCount_append (a : Axis) (d : Bool) (new old : List Emission) :
    pulseCount a d (new ++ old) = pulseCount a d new + pulseCount a d old := by
  simp [pulseCount]

/-- The TX handler's writes do not depend on the motion, and what it emits holds no step request. -/
theorem txHandler_output (s : State) : ∃ new : List Emission, (∀ a d, pulseCount a d new = 0) ∧
    ∀ m old, txHandler { s with motion := m, emitted := old } =
      { s with motion := m, tx := (txHandler s).tx, txie := (txHandler s).txie, emitted := new ++ old } := by
  cases hie : s.txie with
  | false => exact ⟨[], fun _ _ => rfl, fun m old => by simp [txHandler, hie]⟩
  | true =>
    cases hpop : s.tx.pop s.cfg.nTx with
    | none => exact ⟨[], fun _ _ => rfl, fun m old => by simp [txHandler, hie, hpop]⟩
    | some r => exact ⟨[.tx r.1], fun _ _ => rfl, fun m old => by simp [txHandler, hie, hpop, State.emit]⟩

/-- A tick's emission is put before the others, and it holds no byte sent. -/
theorem emitPulses_output (p : Axes (Option Bool)) :
    ∃ new : List Emission, sentBytes new = [] ∧ ∀ old, emitPulses p old = new ++ old := by
  unfold emitPulses
  split
  · exact ⟨[], rfl, fun _ => rfl⟩
  · exact ⟨[.pulses p], rfl, fun _ => rfl⟩

/-- The step-timer handler's writes do not depend on the TX side, and what it emits holds no byte sent. -/
theorem timerHandler_output (s : State) : ∃ new : List Emission, sentBytes new = [] ∧
    ∀ tx ie old, timerHandler { s with tx := tx, txie := ie, emitted := old } =
      { s with motion := (timerHandler s).motion, tx := tx, txie := ie, emitted := new ++ old } := by
  cases harmed : s.motion.timerArmed with
  | false => exact ⟨[], rfl, fun tx ie old => by simp [timerHandler, harmed]⟩
  | true =>
    cases hmoving : s.motion.moving with
    | false => exact ⟨[], rfl, fun tx ie old => by simp [timerHandler, harmed, hmoving]⟩
    | true =>
      obtain ⟨new, hsent, hnew⟩ := emitPulses_output (tickPulses s.cfg.physical s.motion.consumed)
      refine ⟨new, hsent, fun tx ie old => ?_⟩
      rw [← hnew]
      simp [timerHandler, harmed, hmoving, stepTick, Motion.consumed]

/-- Settles O42: no two handlers write the same element, but for the record of emissions, to which one adds bytes and the
other step requests. -/
theorem handlersCommute : Obligations.HandlersCommute := by
  intro s b
  obtain ⟨bytes, hpulses, htx⟩ := txHandler_output s
  obtain ⟨ticks, hsent, htimer⟩ := timerHandler_output s
  have htxThen : txHandler (timerHandler s) = { s with
      motion := (timerHandler s).motion, tx := (txHandler s).tx, txie := (txHandler s).txie
      emitted := bytes ++ (ticks ++ s.emitted) } := by
    rw [← htx, ← htimer s.tx s.txie s.emitted]
  have htimerThen : timerHandler (txHandler s) = { s with
      motion := (timerHandler s).motion, tx := (txHandler s).tx, txie := (txHandler s).txie
      emitted := ticks ++ (bytes ++ s.emitted) } := by
    rw [← htimer, ← htx s.motion s.emitted]
  refine ⟨txHandler_rxHandler b s, timerHandler_rxHandler b s, ?_, ?_, fun a d => ?_⟩
  · rw [htxThen, htimerThen]
  · rw [htxThen, htimerThen]
    simp [sentBytes_append, hsent]
  · rw [htxThen, htimerThen]
    simp [pulseCount_append, hpulses]

/-! ### Who changes what in a step (R31, R50, R96, R98) -/

/-- Settles O44: the controller's turn and each handler keep the parameters, and so does a power cycle. -/
theorem parametersAreFixed : Obligations.ParametersAreFixed := by
  intro s t h
  rcases step_cases h with ⟨-, hrun⟩ | ⟨b, -, rfl⟩ | ⟨-, rfl⟩ | ⟨-, rfl⟩ | ⟨-, rfl⟩
  · obtain ⟨hcfg, -⟩ := controllerTurn_cases hrun
    rw [hcfg, State.advance_cfg]
  · rw [rxHandler_frame, State.advance_cfg]
  · rw [txHandler_frame, State.advance_cfg]
  · rw [timerHandler_frame, State.advance_cfg]
  · rw [State.powerCycle_cfg, State.advance_cfg]

/-- Settles O41: each handler leaves the indices that its frame does not name, and the controller `rx_head` and
`tx_tail`. -/
theorem eachIndexHasOneWriter : Obligations.EachIndexHasOneWriter := by
  intro s t h hpower
  rcases step_cases h with ⟨he, hrun⟩ | ⟨b, he, rfl⟩ | ⟨he, rfl⟩ | ⟨he, rfl⟩ | ⟨he, rfl⟩
  · obtain ⟨-, -, -, hrx, htx, -⟩ := controllerTurn_cases hrun
    simp [he, hrx, htx]
  · have htail : (rxHandler b s.advance).rx.tail = s.rx.tail := by
      rcases rxHandler_cases b s.advance with ⟨-, hrun⟩ | ⟨rx, hpush, hrun⟩
      · rw [hrun, State.advance_rx]
      · obtain ⟨-, -, -, htail⟩ := Fifo.push_eq_some hpush
        rw [hrun, ← State.advance_rx s, ← htail]
    rw [rxHandler_frame]
    simp [he, htail]
  · have hhead : (txHandler s.advance).tx.head = s.tx.head := by
      rcases txHandler_cases s.advance with ⟨-, hrun⟩ | ⟨-, -, hrun⟩ | ⟨b, tx, -, hpop, hrun⟩
      · rw [hrun, State.advance_tx]
      · rw [hrun, ← State.advance_tx s]
      · obtain ⟨-, -, rfl⟩ := Fifo.pop_eq_some hpop
        rw [hrun, ← State.advance_tx s]
        rfl
    rw [txHandler_frame]
    simp [he, hhead]
  · rw [timerHandler_frame]
    simp
  · exact absurd he hpower

/-- The step requests of a tick go to physical axes only (R98). -/
theorem emitPulses_tick_cases (physical : Axes Bool) (m : Motion) (out : List Emission) :
    emitPulses (tickPulses physical m) out = out ∨
      ∃ p, emitPulses (tickPulses physical m) out = .pulses p :: out ∧ ∀ a, p.get a ≠ none → physical.get a = true := by
  rcases emitPulses_cases (tickPulses physical m) out with ⟨-, hrun⟩ | hrun
  · exact .inl hrun
  · refine .inr ⟨_, hrun, fun a hsome => ?_⟩
    rw [tickPulses_get] at hsome
    by_contra hoff
    simp [hoff] at hsome

/-- What one event can add to the record of emissions. -/
def EmitsAtMostOnce (physical : Axes Bool) (old new : List Emission) : Prop :=
  new = old ∨ (∃ b, new = .tx b :: old) ∨ (new = .home .x :: old ∨ new = .home .y :: old) ∨
    ∃ p, new = .pulses p :: old ∧ ∀ a, p.get a ≠ none → physical.get a = true

theorem emitsAtMostOnce_stepTick (s : State) : EmitsAtMostOnce s.cfg.physical s.emitted (stepTick s).emitted := by
  rw [stepTick_emitted]
  exact (emitPulses_tick_cases _ _ _).imp id fun h => .inr (.inr h)

theorem emitsAtMostOnce_controllerTurn (h : controllerTurn s = .next t) :
    EmitsAtMostOnce s.cfg.physical s.emitted t.emitted := by
  obtain ⟨-, -, -, -, -, ⟨-, rfl⟩ | ⟨-, hsame | hhome⟩⟩ := controllerTurn_cases h
  · rcases idleCheck_cases s with ⟨-, hrun⟩ | ⟨w, mq, -, -, hrun⟩
    · rw [hrun]
      exact .inl rfl
    · rw [hrun]
      exact emitsAtMostOnce_stepTick { s with mq := mq, motion := s.motion.begin w }
  · exact .inl hsame
  · exact .inr (.inr (.inl hhome))

theorem emitsAtMostOnce_txHandler (s : State) : EmitsAtMostOnce s.cfg.physical s.emitted (txHandler s).emitted := by
  rcases txHandler_cases s with ⟨-, hrun⟩ | ⟨-, -, hrun⟩ | ⟨b, tx, -, -, hrun⟩ <;> rw [hrun]
  · exact .inl rfl
  · exact .inl rfl
  · exact .inr (.inl ⟨b, rfl⟩)

theorem emitsAtMostOnce_timerHandler (s : State) :
    EmitsAtMostOnce s.cfg.physical s.emitted (timerHandler s).emitted := by
  rcases timerHandler_cases s with ⟨-, hrun⟩ | ⟨-, -, hrun⟩ | ⟨-, -, hrun⟩ <;> rw [hrun]
  · exact .inl rfl
  · exact .inl rfl
  · exact emitsAtMostOnce_stepTick _

/-- Settles O43: the controller and the two sending handlers add at most one entry, the others none. -/
theorem emissionsOnlyGrow : Obligations.EmissionsOnlyGrow := by
  intro s t h
  rw [← State.advance_emitted s, ← State.advance_cfg s]
  rcases step_cases h with ⟨-, hrun⟩ | ⟨b, -, rfl⟩ | ⟨-, rfl⟩ | ⟨-, rfl⟩ | ⟨-, rfl⟩
  · exact emitsAtMostOnce_controllerTurn hrun
  · left
    rw [rxHandler_frame]
  · exact emitsAtMostOnce_txHandler _
  · exact emitsAtMostOnce_timerHandler _
  · exact .inl rfl

/-- The step-timer handler keeps the target and the directions, and without an armed timer the whole motion state. -/
theorem timerHandler_keeps_target (s : State) :
    (timerHandler s).motion.target = s.motion.target ∧ (timerHandler s).motion.dir = s.motion.dir := by
  rcases timerHandler_cases s with ⟨-, hrun⟩ | ⟨-, -, hrun⟩ | ⟨-, -, hrun⟩ <;> rw [hrun] <;> simp

/-- A controller turn changes the motion state only in SPIN, at the start of a move. -/
theorem controllerTurn_motion (h : controllerTurn s = .next t) :
    t.motion = s.motion ∨ (s.ctrl.ctl = .spin ∧ s.motion.moving = false ∧ s.mq.isEmpty = false) := by
  obtain ⟨-, -, -, -, -, ⟨hspin, rfl⟩ | ⟨hsame, -⟩⟩ := controllerTurn_cases h
  · rcases idleCheck_cases s with ⟨-, hrun⟩ | ⟨w, mq, hidle, hpop, -⟩
    · rw [hrun]
      exact .inl rfl
    · obtain ⟨hne, -, -⟩ := Fifo.pop_eq_some hpop
      exact .inr ⟨hspin, hidle, hne⟩
  · exact .inl hsame

/-- Settles O39: the serial handlers keep the motion, the timer handler its target and directions. -/
theorem motionChangesOnlyInTicks : Obligations.MotionChangesOnlyInTicks := by
  intro s t h hpower
  rcases step_cases h with ⟨he, hrun⟩ | ⟨b, he, rfl⟩ | ⟨he, rfl⟩ | ⟨he, rfl⟩ | ⟨he, rfl⟩
  · rcases controllerTurn_motion hrun with hsame | ⟨hspin, hidle, hne⟩
    · simp [hsame]
    · simp only [State.advance_ctrl, State.advance_motion, State.advance_mq] at hspin hidle hne
      exact ⟨fun _ => .inr ⟨he, hspin, hidle, hne⟩, fun _ => ⟨he, hspin, hidle, hne⟩⟩
  · rw [rxHandler_frame]
    simp
  · rw [txHandler_frame]
    simp
  · obtain ⟨htarget, hdir⟩ := timerHandler_keeps_target s.advance
    refine ⟨fun hne => .inl ⟨he, ?_⟩, fun hne => ?_⟩
    · by_contra hoff
      rw [timerHandler_of_disarmed (by simpa using hoff), State.advance_motion] at hne
      exact hne rfl
    · rw [htarget, hdir, State.advance_motion] at hne
      simp at hne
  · exact absurd he hpower

end Sys2Proof.Machine

/-! Circular buffers as bounded queues (R71 to R76): what one use does to the queue of occupied slots and to their number,
and from that sequences of uses (O9) and the capacity law (O10). -/

namespace Sys2Proof.Machine

section
variable {α : Type} [DecidableEq α] [Inhabited α] {n : Nat} {f : Fifo α}

/-- A buffer has a free slot exactly while its queue is shorter than `n - 1` (R69, R70). -/
theorem Fifo.Ok.isFull_eq_false_iff (h : f.Ok n) : f.isFull n = false ↔ (f.contents n).length < n - 1 := by
  have hlt := h.count_lt
  rw [Fifo.length_contents, ← Bool.not_eq_true, h.isFull_iff]
  omega

/-- One use of a buffer in shape is that use of its queue of occupied slots, and keeps it in shape. -/
theorem Fifo.Ok.use (h : f.Ok n) (op : FifoOp α) :
    (f.use n op).1 = (queueUse n (f.contents n) op).1 ∧
      (f.use n op).2.contents n = (queueUse n (f.contents n) op).2 ∧ (f.use n op).2.Ok n := by
  cases op with
  | push x =>
    cases hfull : f.isFull n with
    | true =>
      have hlen : ¬ (f.contents n).length < n - 1 := by rw [← h.isFull_eq_false_iff, hfull]; decide
      simp only [Fifo.use, Fifo.push_eq_none_iff.2 hfull, queueUse, if_neg hlen, true_and]
      exact h
    | false =>
      have hlen := h.isFull_eq_false_iff.1 hfull
      obtain ⟨g, hpush⟩ := Fifo.push_isSome_of_not_full (x := x) hfull
      simp only [Fifo.use, hpush, queueUse, if_pos hlen, true_and]
      exact ⟨h.contents_push hpush, h.push hpush⟩
  | pop =>
    cases hc : f.contents n with
    | nil =>
      simp only [Fifo.use, Fifo.pop_eq_none_iff.2 (h.contents_eq_nil_iff.1 hc), queueUse, true_and]
      exact ⟨hc, h⟩
    | cons x rest =>
      obtain ⟨g, hpop, hg, hrest⟩ := h.pop_of_contents hc
      simp only [Fifo.use, hpop, queueUse, true_and]
      exact ⟨hrest, hg⟩
  | clear => exact ⟨rfl, Fifo.contents_clear, h.clear⟩

theorem Fifo.Ok.results_eq (h : f.Ok n) (ops : List (FifoOp α)) :
    f.results n ops = queueResults n (f.contents n) ops := by
  induction ops generalizing f with
  | nil => rfl
  | cons op ops ih =>
    obtain ⟨hres, hcontents, hok⟩ := h.use op
    rw [Fifo.results, queueResults, hres, ih hok, hcontents]

theorem Fifo.Ok.after (h : f.Ok n) (ops : List (FifoOp α)) : (f.after n ops).Ok n := by
  induction ops generalizing f with
  | nil => exact h
  | cons op ops ih =>
    obtain ⟨-, -, hok⟩ := h.use op
    exact ih hok

/-! ### Counting what was accepted and what was popped (R75) -/

omit [DecidableEq α] [Inhabited α] in
theorem acceptedCount_cons (r : FifoResult α) (rs : List (FifoResult α)) :
    acceptedCount (r :: rs) = acceptedCount [r] + acceptedCount rs :=
  List.countP_append (l₁ := [r])

omit [DecidableEq α] [Inhabited α] in
theorem poppedCount_cons (r : FifoResult α) (rs : List (FifoResult α)) :
    poppedCount (r :: rs) = poppedCount [r] + poppedCount rs :=
  List.countP_append (l₁ := [r])

/-- A use other than `clear` adds to the occupied slots what it accepts and takes off what it pops. -/
theorem Fifo.Ok.count_use (h : f.Ok n) {op : FifoOp α} (hop : op ≠ .clear) :
    (f.use n op).2.count n + poppedCount [(f.use n op).1] = f.count n + acceptedCount [(f.use n op).1] := by
  cases op with
  | push x =>
    cases hpush : f.push n x with
    | none => simp only [Fifo.use, hpush]; rfl
    | some g =>
      simp only [Fifo.use, hpush]
      exact h.count_push hpush
  | pop =>
    cases hpop : f.pop n with
    | none => simp only [Fifo.use, hpop]; rfl
    | some r =>
      simp only [Fifo.use, hpop]
      exact (h.count_pop hpop).symm
  | clear => exact absurd rfl hop

/-- Without `clear`, the occupied slots are those of the start, with what was accepted and without what was popped. -/
theorem Fifo.Ok.count_after (h : f.Ok n) {ops : List (FifoOp α)} (hclear : FifoOp.clear ∉ ops) :
    (f.after n ops).count n + poppedCount (f.results n ops) = f.count n + acceptedCount (f.results n ops) := by
  induction ops generalizing f with
  | nil => rfl
  | cons op ops ih =>
    rw [List.mem_cons, not_or] at hclear
    obtain ⟨hop, hops⟩ := hclear
    obtain ⟨-, -, hok⟩ := h.use op
    have hone := h.count_use (Ne.symm hop)
    have hrest := ih hok hops
    rw [Fifo.after, Fifo.results, poppedCount_cons, acceptedCount_cons]
    omega

end

/-- Settles O9, by induction on the uses. -/
theorem fifoActsAsBoundedQueue : Obligations.FifoActsAsBoundedQueue :=
  fun _ _ _ _ _ ops h => ⟨h.results_eq ops, h.after ops⟩

/-- Settles O10: full and empty are `n - 1` and no occupied slots. -/
theorem fifoCapacityLaw : Obligations.FifoCapacityLaw := by
  intro α _ _ n f ops x h hempty hclear pushed popped
  have hcount : (f.after n ops).count n + popped = f.count n + pushed := h.count_after hclear
  rw [h.isEmpty_iff.1 hempty, Nat.zero_add] at hcount
  have hok := h.after ops
  rw [Fifo.push_eq_none_iff, hok.isFull_iff, hok.isEmpty_iff]
  omega

end Sys2Proof.Machine

/-! The invariant of the block (R34 to R38, R96, R99): the four motion clauses, the clauses on the buffers and the line
counter, and the controller's registers, each kept by every operation that writes them, and from that every step (O48), no
stop (O49), reset (O46, O47) and every run (O50). -/

namespace Sys2Proof.Machine

variable {s t : State} {m : Motion} {k : Controller} {b : Byte}

/-! ### The motion clauses (R34 to R36, R96, R99) -/

/-- The motion clauses of the invariant. -/
structure Motion.Sound (m : Motion) : Prop where
  timer     : m.TimerOnlyInMove
  idle      : m.IdleAtTarget
  direction : m.DirAgrees
  goesOn    : m.MoveGoesOn

theorem Motion.sound_reset : Motion.reset.Sound where
  timer := by simp [Motion.reset]
  idle := fun _ => rfl
  direction := by simp [Motion.DirAgrees, Motion.reset]
  goesOn := by simp [Motion.MoveGoesOn, Motion.reset]

theorem Motion.sound_of_idle (hmoving : m.moving = false) (htimer : m.timerArmed = false) (h : m.current = m.target) :
    m.Sound where
  timer := by simp [Motion.TimerOnlyInMove, htimer]
  idle := fun _ => h
  direction := by simp [Motion.DirAgrees, hmoving]
  goesOn := by simp [Motion.MoveGoesOn, hmoving]

/-- A unit toward the target, short of it, leaves the way to the target the same. -/
theorem lt_iff_add_sign_lt {c t : Int} (h : c + (t - c).sign ≠ t) : c < t ↔ c + (t - c).sign < t := by
  rcases lt_trichotomy (t - c) 0 with hneg | hzero | hpos
  · rw [Int.sign_eq_neg_one_of_neg hneg]
    omega
  · rw [hzero, Int.sign_zero] at h
    omega
  · rw [Int.sign_eq_one_of_pos hpos] at h ⊢
    omega

/-- The direction of every axis short of its target is the way to it (R36), whether or not a move is in flight. -/
def Motion.Aimed (m : Motion) : Prop :=
  ∀ a : Axis, m.current.get a ≠ m.target.get a →
    (m.dir.get a = true ↔ (m.current.get a).toInt < (m.target.get a).toInt)

theorem Motion.dirAgrees_iff_aimed : m.DirAgrees ↔ (m.moving = true → m.Aimed) := Iff.rfl

theorem Motion.Aimed.toInt_stepped (h : m.Aimed) (a : Axis) :
    (m.stepped.current.get a).toInt =
      (m.current.get a).toInt + ((m.target.get a).toInt - (m.current.get a).toInt).sign := by
  rw [Motion.stepped_current]
  exact stepAxis_toInt m a (h a)

theorem Motion.Aimed.stepped (h : m.Aimed) : m.stepped.Aimed := by
  intro a hshort
  have hto := h.toInt_stepped a
  have hne : (m.current.get a).toInt + ((m.target.get a).toInt - (m.current.get a).toInt).sign ≠
      (m.target.get a).toInt := by
    rw [← hto]
    exact fun heq => hshort (BitVec.eq_of_toInt_eq heq)
  have hshortBefore : m.current.get a ≠ m.target.get a := by
    intro heq
    rw [heq, sub_self, Int.sign_zero, add_zero] at hne
    exact hne rfl
  rw [hto, Motion.stepped_target, ← lt_iff_add_sign_lt hne]
  exact h a hshortBefore

theorem Motion.Aimed.settle (h : m.Aimed) : m.settle.Aimed := by
  intro a
  rw [Motion.settle_current, Motion.settle_target, Motion.settle_dir]
  exact h a

/-- A tick of a move whose expiry was consumed ends in a sound motion state: the timer armed, or the move over. -/
theorem Motion.sound_tick (hm : m.moving = true) (hoff : m.timerArmed = false) (hd : m.Aimed) :
    m.stepped.settle.Sound where
  timer := by simp [Motion.TimerOnlyInMove, hm, hoff]
  idle := by simp [Motion.IdleAtTarget, hm]
  direction := fun _ => hd.stepped.settle
  goesOn := by
    simp only [Motion.MoveGoesOn, Motion.settle_moving, Motion.settle_timerArmed, Motion.settle_current,
      Motion.settle_target, Motion.stepped_moving, Motion.stepped_timerArmed, hm, hoff, Bool.true_and, Bool.false_or,
      bne_iff_ne]
    exact fun h => ⟨h, h⟩

theorem Motion.Sound.timerArmed_of_idle (h : m.Sound) (hidle : m.moving = false) : m.timerArmed = false := by
  rw [← Bool.not_eq_true] at hidle ⊢
  exact fun harmed => hidle (h.timer harmed)

theorem Motion.Sound.begin_tick (h : m.Sound) (hidle : m.moving = false) (w : Pos4) :
    (m.begin w).stepped.settle.Sound := by
  refine Motion.sound_tick (Motion.begin_moving m w) ?_ (Motion.dirAgrees_begin m w rfl)
  rw [Motion.begin_timerArmed]
  exact h.timerArmed_of_idle hidle

theorem Motion.Sound.expiry_tick (h : m.Sound) (harmed : m.timerArmed = true) : m.consumed.stepped.settle.Sound :=
  Motion.sound_tick (m := m.consumed) (h.timer harmed) (Motion.consumed_timerArmed m)
    (h.direction (h.timer harmed))

/-! ### The clauses on everything but the controller (R34 to R38, R41) -/

/-- The invariant without its clauses on the controller. -/
structure State.DataInv (s : State) : Prop where
  shaped  : s.Shaped
  motion  : s.motion.Sound
  lines   : s.LinesCounted
  txArmed : s.TxArmed

theorem State.Inv.dataInv (h : s.Inv) : s.DataInv :=
  ⟨h.shaped, ⟨h.timer, h.idle, h.direction, h.goesOn⟩, h.lines, h.txArmed⟩

theorem State.DataInv.inv (h : s.DataInv) (hk : s.ctrl.Ok) (hl : s.ctrl.ctl = .readOp → s.rxLines ≠ 0) : s.Inv :=
  ⟨h.shaped, h.motion.timer, h.motion.idle, h.motion.direction, h.motion.goesOn, h.lines, h.txArmed, hk, hl⟩

/-- The controller's registers, the emissions and the schedule are no part of it. -/
theorem State.DataInv.congr (h : s.DataInv) (k : Controller) (out : List Emission) (es : List Event) (n : Nat) :
    { s with ctrl := k, emitted := out, sched := es, turn := n }.DataInv := ⟨h.shaped, h.motion, h.lines, h.txArmed⟩

theorem State.DataInv.withMotion (h : s.DataInv) {m : Motion} (hm : m.Sound) : { s with motion := m }.DataInv :=
  ⟨h.shaped, hm, h.lines, h.txArmed⟩

theorem State.DataInv.withMq (h : s.DataInv) {mq : Fifo Pos4} (hmq : mq.Ok s.cfg.nMq) : { s with mq := mq }.DataInv := by
  obtain ⟨hvalid, hrx, htx, -⟩ := h.shaped
  exact ⟨⟨hvalid, hrx, htx, hmq⟩, h.motion, h.lines, h.txArmed⟩

theorem State.DataInv.withTx (h : s.DataInv) {tx : Fifo Byte} {ie : Bool} (htx : tx.Ok s.cfg.nTx)
    (hie : tx.isEmpty = false → ie = true) : { s with tx := tx, txie := ie }.DataInv := by
  obtain ⟨hvalid, hrx, -, hmq⟩ := h.shaped
  exact ⟨⟨hvalid, hrx, htx, hmq⟩, h.motion, h.lines, hie⟩

theorem State.DataInv.withRx (h : s.DataInv) {rx : Fifo Byte} {n : Nat} (hrx : rx.Ok s.cfg.nRx)
    (hn : n = (rx.contents s.cfg.nRx).count terminator) : { s with rx := rx, rxLines := n }.DataInv := by
  obtain ⟨hvalid, -, htx, hmq⟩ := h.shaped
  exact ⟨⟨hvalid, hrx, htx, hmq⟩, h.motion, hn, h.txArmed⟩

/-! ### What the transport, the queue and the commands keep of it -/

/-- The line counter follows a read of the oldest byte (R81). -/
theorem State.LinesCounted.tail_count {rest : List Byte} (hl : s.LinesCounted)
    (hc : s.rx.contents s.cfg.nRx = b :: rest) :
    (if b = terminator then s.rxLines - 1 else s.rxLines) = rest.count terminator := by
  rw [hl, hc, List.count_cons]
  by_cases hb : b = terminator <;> simp [hb]

/-- A read of the oldest byte leaves the counted lines of what is left (R81). -/
theorem State.readByte_eq_of_contents {rest : List Byte} (hok : s.rx.Ok s.cfg.nRx) (hl : s.LinesCounted)
    (hc : s.rx.contents s.cfg.nRx = b :: rest) :
    ∃ rx, s.rx.pop s.cfg.nRx = some (b, rx) ∧ rx.contents s.cfg.nRx = rest ∧
      s.readByte = some (b, { s with rx := rx, rxLines := rest.count terminator }) := by
  obtain ⟨rx, hpop, hrest, hread⟩ := State.readByte_of_contents hok hl hc
  rw [hl.tail_count hc] at hread
  exact ⟨rx, hpop, hrest, hread⟩

theorem State.DataInv.readByte (h : s.DataInv) (hread : s.readByte = some (b, t)) : t.DataInv := by
  obtain ⟨-, hok, -, -⟩ := h.shaped
  obtain ⟨rx, hpop, -⟩ := State.readByte_eq_some hread
  obtain ⟨rx', hpop', hrest, hread'⟩ := State.readByte_eq_of_contents hok h.lines (hok.contents_pop hpop)
  rw [hread] at hread'
  cases hread'
  exact h.withRx (hok.pop hpop') (by rw [hrest])

theorem State.DataInv.writeByte (h : s.DataInv) (hwrite : s.writeByte b = some t) : t.DataInv := by
  obtain ⟨-, -, hok, -⟩ := h.shaped
  obtain ⟨tx, hpush, rfl⟩ := State.writeByte_eq_some hwrite
  exact h.withTx (hok.push hpush) fun _ => rfl

theorem State.DataInv.rxHandler (h : s.DataInv) (b : Byte) : (rxHandler b s).DataInv := by
  obtain ⟨-, hok, -, -⟩ := h.shaped
  cases hfull : s.rx.isFull s.cfg.nRx with
  | true => rwa [rxHandler_of_full hfull]
  | false =>
    obtain ⟨rx, hpush, hrun⟩ := rxHandler_of_not_full (b := b) h.lines hok hfull
    rw [hrun]
    refine h.withRx (hok.push hpush) ?_
    rw [hok.contents_push hpush, List.count_append, ← h.lines, List.count_singleton]
    by_cases hb : b = terminator <;> simp [hb]

theorem State.DataInv.txHandler (h : s.DataInv) : (txHandler s).DataInv := by
  obtain ⟨-, -, hok, -⟩ := h.shaped
  rcases txHandler_cases s with ⟨-, hrun⟩ | ⟨-, hempty, hrun⟩ | ⟨b, tx, hie, hpop, hrun⟩ <;> rw [hrun]
  · exact h
  · exact h.withTx hok fun hne => absurd hempty (by simp [hne])
  · exact (h.withTx (ie := s.txie) (hok.pop hpop) fun _ => hie).congr _ _ _ _

theorem State.DataInv.timerHandler (h : s.DataInv) : (timerHandler s).DataInv := by
  cases harmed : s.motion.timerArmed with
  | false => rwa [timerHandler_of_disarmed harmed]
  | true =>
    rw [timerHandler_of_armed h.motion.timer harmed]
    exact (h.withMotion (h.motion.expiry_tick harmed)).congr _ _ _ _

theorem State.DataInv.idleCheck (h : s.DataInv) : (idleCheck s).DataInv := by
  obtain ⟨-, -, -, hok⟩ := h.shaped
  rcases idleCheck_cases s with ⟨-, hrun⟩ | ⟨w, mq, hidle, hpop, hrun⟩ <;> rw [hrun]
  · exact h
  · exact ((h.withMq (hok.pop hpop)).withMotion (h.motion.begin_tick hidle w)).congr _ _ _ _

theorem State.DataInv.exec {i : Instr} (h : s.DataInv) (hrun : exec i s = .next t) : t.DataInv := by
  obtain ⟨-, -, -, hok⟩ := h.shaped
  have hmq : t.mq.Ok s.cfg.nMq := by
    obtain ⟨hmq, -⟩ := exec_mq_emitted hrun
    rw [hmq]
    rcases commandEffect_mq_cases i s with heq | ⟨-, w, hpush⟩ | ⟨-, hclear⟩
    · rwa [heq]
    · exact hok.push hpush
    · rw [hclear]
      exact hok.clear
  obtain ⟨mq, out, k, hnext⟩ := exec_next i s
  rw [hrun] at hnext
  cases hnext
  exact (h.withMq hmq).congr _ _ _ _

theorem State.dataInv_resetWith {c : Config} (hc : c.Valid) : (State.resetWith c).DataInv := by
  have hvalid := hc
  obtain ⟨-, hrx, ⟨htx, -⟩, ⟨hmq, -⟩, -⟩ := hc
  refine ⟨⟨hvalid, Fifo.ok_reset ?_, Fifo.ok_reset ?_, Fifo.ok_reset ?_⟩, Motion.sound_reset, ?_, ?_⟩
  · dsimp only [State.resetWith]
    omega
  · dsimp only [State.resetWith]
    omega
  · dsimp only [State.resetWith]
    omega
  · simp [State.LinesCounted, State.resetWith, Fifo.contents_reset]
  · simp [State.TxArmed, State.resetWith, Fifo.isEmpty, Fifo.reset]

theorem State.DataInv.powerCycle (h : s.DataInv) : s.powerCycle.DataInv := by
  obtain ⟨hvalid, -⟩ := h.shaped
  exact (State.dataInv_resetWith hvalid).congr _ _ _ _

/-! ### The controller's registers (R30, R103 to R107) -/

/-- Outside PAYLOAD, EXEC and RESPOND only the ranges of R30 matter. -/
theorem Controller.ok_of_ranges (hc : k.ctl ≠ .payload ∧ k.ctl ≠ .exec ∧ k.ctl ≠ .respond)
    (hr : k.pcount ≤ 12 ∧ k.resp.length ≤ 14 ∧ k.ridx ≤ 14) : k.Ok :=
  ⟨fun h => absurd h hc.1, fun h => absurd h hc.2.1, fun h => absurd h hc.2.2, hr⟩

theorem Controller.Ok.goto_idle {c : Ctl} (h : k.Ok) (hc : c ≠ .payload ∧ c ≠ .exec ∧ c ≠ .respond) :
    { k with ctl := c }.Ok :=
  Controller.ok_of_ranges hc h.ranges

theorem payloadLength_terminator : payloadLength terminator = 0 := rfl

/-- After an opcode byte that is no terminator: PAYLOAD when it has a payload, else EXEC (R104). -/
theorem Controller.Ok.readOpcode (h : k.Ok) (hb : b ≠ terminator) :
    { k with op := b, pcount := 0, ctl := afterOpcode b }.Ok := by
  obtain ⟨-, hresp, hridx⟩ := h.ranges
  rw [afterOpcode]
  rcases payloadLength_eq_or b with hlen | hlen
  · rw [if_pos hlen]
    exact ⟨fun _ => ⟨Nat.zero_lt_succ 11, hlen⟩, nofun, nofun, Nat.zero_le 12, hresp, hridx⟩
  · rw [if_neg (by omega)]
    exact ⟨nofun, fun _ => ⟨hb, hlen.symm⟩, nofun, Nat.zero_le 12, hresp, hridx⟩

/-- After a payload byte: still PAYLOAD, or EXEC after the twelfth (R105). -/
theorem Controller.Ok.readPayload (h : k.Ok) (hc : k.ctl = .payload) (q : Vector Byte 12) :
    { k with pbuf := q, pcount := k.pcount + 1, ctl := if k.pcount + 1 = 12 then .exec else k.ctl }.Ok := by
  obtain ⟨hlt, hlen⟩ := h.payload hc
  obtain ⟨-, hresp, hridx⟩ := h.ranges
  by_cases hlast : k.pcount + 1 = 12
  · rw [if_pos hlast]
    refine ⟨nofun, fun _ => ⟨fun hop => ?_, ?_⟩, nofun, by simp [hlast], hresp, hridx⟩
    · rw [hop, payloadLength_terminator] at hlen
      cases hlen
    · exact hlast.trans hlen.symm
  · rw [if_neg hlast, hc]
    exact ⟨fun _ => ⟨by dsimp only; omega, hlen⟩, nofun, nofun, by dsimp only; omega, hresp, hridx⟩

/-- A performed command stands in RESPOND before its response, or, the empty frame, in SPIN (R104, R106). -/
theorem ctrl_ok_of_exec {i : Instr} (h : s.ctrl.Ok) (hrun : exec i s = .next t) :
    t.ctrl.Ok ∧ t.ctrl.ctl ≠ .readOp := by
  by_cases hi : i = .emptyFrame
  · subst hi
    cases hrun
    exact ⟨h.goto_idle (by decide), nofun⟩
  · obtain ⟨-, -, hpcount⟩ := exec_keeps_operands hrun
    obtain ⟨hk, -, -⟩ := h.ranges
    rw [← hpcount] at hk
    rw [exec_of_ne_emptyFrame hi] at hrun
    cases hrun
    exact ⟨⟨nofun, nofun, fun _ => Nat.zero_le _, hk, length_commandResponse_le i s, Nat.zero_le _⟩, nofun⟩

theorem Controller.Ok.writeResponse (h : k.Ok) (hc : k.ctl = .respond) (hlt : k.ridx < k.resp.length) :
    { k with ridx := k.ridx + 1 }.Ok := by
  obtain ⟨hpcount, hresp, -⟩ := h.ranges
  refine ⟨fun hpayload => ?_, fun hexec => ?_, fun _ => hlt, hpcount, hresp, by dsimp only; omega⟩
  · rw [hc] at hpayload
    cases hpayload
  · rw [hc] at hexec
    cases hexec

/-! ### The controller's turn keeps the invariant and does not stop -/

theorem State.Inv.pollTransition (h : s.Inv) : (pollTransition s).Inv := by
  rw [pollTransition_eq]
  refine State.DataInv.inv (h.dataInv.congr _ _ _ _) (h.controller.goto_idle ?_) ?_
  · split <;> decide
  · rw [State.goto_ctrl, State.goto_rxLines]
    split
    · exact nofun
    · next hne => exact fun _ => hne

theorem State.Inv.readOpTransition (h : s.Inv) : ∃ t, readOpTransition s = .next t ∧ t.Inv := by
  rcases readOpTransition_cases s with ⟨-, hrun⟩ | ⟨b, u, hread, hrun⟩
  · exact ⟨s, hrun, h⟩
  · have hdata := h.dataInv.readByte hread
    obtain ⟨-, -, -, -, -, hctrl, -⟩ := State.readByte_frame hread
    have hok := h.controller
    rw [← hctrl] at hok
    obtain ⟨-, hresp, hridx⟩ := hok.ranges
    refine ⟨_, hrun, State.DataInv.inv (hdata.congr _ _ _ _) ?_ ?_⟩ <;> rw [State.goto_ctrl] <;> split
    · exact Controller.ok_of_ranges (by simp) ⟨by simp, hresp, hridx⟩
    · next hb => exact hok.readOpcode hb
    · exact nofun
    · unfold afterOpcode
      split <;> exact nofun

theorem State.Inv.payloadTransition (h : s.Inv) (hc : s.ctrl.ctl = .payload) :
    ∃ t, payloadTransition s = .next t ∧ t.Inv := by
  obtain ⟨hlt, -⟩ := h.controller.payload hc
  rcases payloadTransition_cases s with ⟨hge, -⟩ | ⟨-, -, hrun⟩ | ⟨b, u, -, hread, hrun⟩
  · omega
  · exact ⟨s, hrun, h⟩
  · refine ⟨_, hrun, State.DataInv.inv ((h.dataInv.readByte hread).congr _ _ _ _) (h.controller.readPayload hc _) ?_⟩
    dsimp only
    rw [hc]
    split <;> exact nofun

theorem State.Inv.execTransition (h : s.Inv) (hc : s.ctrl.ctl = .exec) : ∃ t, execTransition s = .next t ∧ t.Inv := by
  obtain ⟨hop, -⟩ := h.controller.exec hc
  obtain ⟨mq, out, k, hrun⟩ := exec_next (decodeOp s.cfg.codecOrder s.ctrl.op s.ctrl.pbuf) s
  obtain ⟨hok, hctl⟩ := ctrl_ok_of_exec h.controller hrun
  exact ⟨_, (execTransition_of_ne_terminator hop).trans hrun,
    (h.dataInv.exec hrun).inv hok fun hreadOp => absurd hreadOp hctl⟩

theorem State.Inv.respondTransition (h : s.Inv) (hc : s.ctrl.ctl = .respond) :
    ∃ t, respondTransition s = .next t ∧ t.Inv := by
  have hle := h.controller.respond hc
  rcases respondTransition_cases s with ⟨-, hrun⟩ | ⟨hpast, -⟩ | ⟨-, -, hrun⟩ | ⟨b, u, hb, hwrite, hrun⟩
  · exact ⟨_, hrun, State.DataInv.inv (h.dataInv.congr _ _ _ _) (h.controller.goto_idle (by decide)) nofun⟩
  · omega
  · exact ⟨s, hrun, h⟩
  · have hlt : s.ctrl.ridx < s.ctrl.resp.length := (List.getElem?_eq_some_iff.1 hb).1
    refine ⟨_, hrun, State.DataInv.inv ((h.dataInv.writeByte hwrite).congr _ _ _ _)
      (h.controller.writeResponse hc hlt) ?_⟩
    dsimp only
    rw [hc]
    exact nofun

theorem State.Inv.discardTransition (h : s.Inv) (hc : s.ctrl.ctl = .discard) : (discardTransition s).Inv := by
  rcases discardTransition_cases s with ⟨-, hrun⟩ | ⟨b, u, hread, hrun⟩ <;> rw [hrun]
  · exact h
  · have hdata := h.dataInv.readByte hread
    obtain ⟨-, -, -, -, -, hctrl, -⟩ := State.readByte_frame hread
    have hok := h.controller
    rw [← hctrl] at hok hc
    split
    · exact State.DataInv.inv (hdata.congr _ _ _ _) (hok.goto_idle (by decide)) nofun
    · refine hdata.inv hok ?_
      rw [hc]
      exact nofun

theorem idleCheck_ctrl (s : State) : (idleCheck s).ctrl = s.ctrl := by
  rcases idleCheck_cases s with ⟨-, hrun⟩ | ⟨w, mq, -, -, hrun⟩ <;> rw [hrun]
  rfl

theorem State.Inv.spinTransition (h : s.Inv) : (spinTransition s).Inv := by
  refine State.DataInv.inv (h.dataInv.idleCheck.congr _ _ _ _) ?_ nofun
  rw [Machine.spinTransition, State.goto_ctrl, idleCheck_ctrl]
  exact h.controller.goto_idle (by decide)

/-- From a state that meets the invariant, the controller's turn answers one that does. -/
theorem State.Inv.controllerTurn (h : s.Inv) : ∃ t, controllerTurn s = .next t ∧ t.Inv := by
  cases hc : s.ctrl.ctl with
  | poll => exact ⟨_, controllerTurn_of_poll hc, h.pollTransition⟩
  | readOp =>
    rw [controllerTurn_of_readOp hc]
    exact h.readOpTransition
  | payload =>
    rw [controllerTurn_of_payload hc]
    exact h.payloadTransition hc
  | exec =>
    rw [controllerTurn_of_exec hc]
    exact h.execTransition hc
  | respond =>
    rw [controllerTurn_of_respond hc]
    exact h.respondTransition hc
  | discard => exact ⟨_, controllerTurn_of_discard hc, h.discardTransition hc⟩
  | spin => exact ⟨_, controllerTurn_of_spin hc, h.spinTransition⟩

/-! ### The handlers and a power cycle keep it -/

theorem State.Inv.rxHandler (h : s.Inv) (b : Byte) : (rxHandler b s).Inv := by
  have hctrl : (Machine.rxHandler b s).ctrl = s.ctrl := by rw [rxHandler_frame]
  refine (h.dataInv.rxHandler b).inv (by rw [hctrl]; exact h.controller) fun hreadOp => ?_
  rw [hctrl] at hreadOp
  have hne := h.lineToRead hreadOp
  obtain ⟨-, hok, -, -⟩ := h.shaped
  cases hfull : s.rx.isFull s.cfg.nRx with
  | true => rwa [rxHandler_of_full hfull]
  | false =>
    obtain ⟨rx, -, hrun⟩ := rxHandler_of_not_full (b := b) h.lines hok hfull
    rw [hrun]
    dsimp only
    split <;> omega

theorem State.Inv.txHandler (h : s.Inv) : (txHandler s).Inv := by
  refine h.dataInv.txHandler.inv ?_ ?_ <;> rw [txHandler_frame]
  · exact h.controller
  · exact h.lineToRead

theorem State.Inv.timerHandler (h : s.Inv) : (timerHandler s).Inv := by
  refine h.dataInv.timerHandler.inv ?_ ?_ <;> rw [timerHandler_frame]
  · exact h.controller
  · exact h.lineToRead

theorem Controller.ok_reset : Controller.reset.Ok := Controller.ok_of_ranges (by decide) (by decide)

theorem State.Inv.powerCycle (h : s.Inv) : s.powerCycle.Inv :=
  h.dataInv.powerCycle.inv Controller.ok_reset nofun

/-! ### Every step, every run -/

/-- From a state that meets the invariant, whichever event comes, the step answers one that does. -/
theorem State.Inv.step (h : s.Inv) : ∃ t, step s = .next t ∧ t.Inv := by
  have hadvance := h.advance
  cases he : s.nextEvent with
  | controller =>
    rw [step_of_controllerTurn he]
    exact hadvance.controllerTurn
  | rxByte b => exact ⟨_, step_of_event he, hadvance.rxHandler b⟩
  | txReady => exact ⟨_, step_of_event he, hadvance.txHandler⟩
  | timerExpiry => exact ⟨_, step_of_event he, hadvance.timerHandler⟩
  | powerOn => exact ⟨_, step_of_event he, hadvance.powerCycle⟩

/-- Settles O48: by cases on the event, each agent keeping the invariant. -/
theorem stepKeepsInvariant : Obligations.StepKeepsInvariant := by
  intro s t h hstep
  obtain ⟨u, hrun, hu⟩ := h.step
  rw [hstep] at hrun
  cases hrun
  exact hu

/-- Settles O49: the same case analysis answers a next state each time. -/
theorem noStepTraps : Obligations.NoStepTraps := by
  intro s h
  obtain ⟨t, hrun, -⟩ := h.step
  exact ⟨t, hrun⟩

/-- Settles O47: empty buffers, no move, no line and the controller in POLL. -/
theorem resetMeetsInvariant : Obligations.ResetMeetsInvariant := by
  intro c es k hvalid
  exact State.DataInv.inv ((State.dataInv_resetWith hvalid).congr _ _ es k) Controller.ok_reset nofun

/-- Settles O46: the values of R137 are the fields of the reset state. -/
theorem resetLeavesIdleAtZero : Obligations.ResetLeavesIdleAtZero := by
  rintro s t (⟨c, rfl⟩ | ⟨he, hstep⟩)
  · exact ⟨rfl, rfl, rfl, rfl, rfl, rfl, rfl, rfl, rfl, rfl, rfl, rfl⟩
  · rw [step_of_event he] at hstep
    cases hstep
    exact ⟨rfl, rfl, rfl, rfl, rfl, rfl, rfl, rfl, rfl, rfl, rfl, rfl⟩

/-- Every reachable state meets the invariant: the reset states do, and every step keeps it. -/
theorem Reachable.inv (h : Reachable s) : s.Inv := by
  obtain ⟨c, es, k, hvalid, hreach⟩ := h
  generalize hr : ({ State.resetWith c with sched := es, turn := k } : State) = r at hreach
  induction hreach with
  | refl =>
    rw [← hr]
    exact resetMeetsInvariant c es k hvalid
  | tail _ hstep ih => exact stepKeepsInvariant _ _ ih hstep

/-- The counted lines are among the occupied slots (R37). -/
theorem State.Inv.rxLines_le (h : s.Inv) : s.rxLines ≤ s.cfg.nRx - 1 := by
  obtain ⟨-, hok, -, -⟩ := h.shaped
  have hle : s.rxLines ≤ s.rx.count s.cfg.nRx := by
    rw [h.lines, ← Fifo.length_contents]
    exact List.count_le_length
  have hlt := hok.count_lt
  omega

/-- Settles O50: a reachable state meets the invariant. -/
theorem runsKeepSpecInvariants : Obligations.RunsKeepSpecInvariants := by
  intro s hreach
  have h := hreach.inv
  exact ⟨h.timer, h.idle, ⟨h.lines, h.rxLines_le⟩, h.txArmed⟩

end Sys2Proof.Machine

/-! Consequences of the invariant and of the controller's POLL and SPIN (R36, R83, R146, R152): a move in a run goes toward
its target (O51), a quiescent block stays quiescent (O52), the RX dead end lasts (O53), and an available line is read
without a hold (O14). -/

namespace Sys2Proof.Machine

variable {s t : State} {b : Byte}

/-! ### A move in a run (R36) -/

/-- A unit toward the target ends between the start and the target. -/
theorem add_sign_between (c t : Int) :
    (c ≤ c + (t - c).sign ∧ c + (t - c).sign ≤ t) ∨ (t ≤ c + (t - c).sign ∧ c + (t - c).sign ≤ c) := by
  rcases lt_trichotomy (t - c) 0 with hneg | hzero | hpos
  · rw [Int.sign_eq_neg_one_of_neg hneg]
    omega
  · rw [hzero, Int.sign_zero]
    omega
  · rw [Int.sign_eq_one_of_pos hpos]
    omega

/-- With a move in flight, a step short of a power cycle keeps the motion state, but for the armed timer's expiry, which
takes one tick. -/
theorem State.Inv.motion_cases (h : s.Inv) (hmoving : s.motion.moving = true) (hstep : Machine.step s = .next t)
    (hpower : s.nextEvent ≠ .powerOn) : t.motion = s.motion ∨ t.motion = s.motion.consumed.stepped.settle := by
  obtain ⟨hchange, -⟩ := motionChangesOnlyInTicks s t hstep hpower
  by_cases hsame : t.motion = s.motion
  · exact .inl hsame
  · rcases hchange hsame with ⟨he, harmed⟩ | ⟨-, -, hidle, -⟩
    · rw [step_of_armed_timerExpiry h.timer he harmed] at hstep
      cases hstep
      exact .inr rfl
    · rw [hmoving] at hidle
      cases hidle

/-- Settles O51: the directions are the invariant's, and a step is no change of the motion or one unit toward the
target. -/
theorem runsMoveTowardTarget : Obligations.RunsMoveTowardTarget := by
  intro s t hreach hmoving hstep hpower a
  have h := hreach.inv
  refine ⟨fun hshort => h.direction hmoving a hshort, ?_⟩
  rcases h.motion_cases hmoving hstep hpower with hsame | htick
  · rw [hsame]
    exact ⟨rfl, (le_total _ _).imp (fun hle => ⟨le_rfl, hle⟩) fun hle => ⟨hle, le_rfl⟩⟩
  · have hdir : s.motion.consumed.DirAgrees := h.direction
    have hto := Motion.toInt_stepped_current (m := s.motion.consumed) hmoving hdir a
    rw [htick, Motion.settle_target, Motion.settle_current, hto]
    exact ⟨rfl, add_sign_between _ _⟩

/-! ### Quiescence (R152) -/

theorem txHandler_of_nothing_to_send (h : s.tx.isEmpty = true) : txHandler s = { s with txie := false } := by
  cases hie : s.txie with
  | true => exact txHandler_of_empty hie h
  | false => rw [txHandler_of_disabled hie, ← hie]

/-- Without a counted line and without a move to start, POLL and SPIN alternate. -/
theorem controllerTurn_of_nothing_to_do (hlines : s.rxLines = 0) (hctl : s.ctrl.ctl = .poll ∨ s.ctrl.ctl = .spin)
    (hmq : s.motion.moving = true ∨ s.mq.isEmpty = true) :
    controllerTurn s = .next (s.goto (if s.ctrl.ctl = .poll then .spin else .poll)) := by
  rcases hctl with hc | hc
  · rw [controllerTurn_of_poll hc, pollTransition_eq, if_pos hlines, if_pos hc]
  · rw [controllerTurn_of_spin hc, spinTransition, idleCheck_of_nothing_to_start hmq, if_neg (by simp [hc])]

theorem State.Quiescent.advance (h : s.Quiescent) : s.advance.Quiescent := by simpa [State.Quiescent] using h

/-- Neither the controller's place between POLL and SPIN nor `txie` matters to quiescence. -/
theorem State.Quiescent.congr (h : s.Quiescent) (ie : Bool) {c : Ctl} (hc : c = .poll ∨ c = .spin) :
    { s with txie := ie, ctrl := { s.ctrl with ctl := c } }.Quiescent := by
  obtain ⟨hrx, hlines, -, hmoving, htimer, hmq, htx⟩ := h
  exact ⟨hrx, hlines, hc, hmoving, htimer, hmq, htx⟩

/-- Settles O52: the three agents find nothing to do. -/
theorem quiescentBlockStaysQuiescent : Obligations.QuiescentBlockStaysQuiescent := by
  intro s _ hq
  have hqa := hq.advance
  obtain ⟨-, hlines, hctl, -, htimer, hmq, htx⟩ := hqa
  have hcontroller : s.nextEvent = .controller → step s = .next (s.advance.goto
      (if s.advance.ctrl.ctl = .poll then .spin else .poll)) := fun he =>
    (step_of_controllerTurn he).trans (controllerTurn_of_nothing_to_do hlines hctl (.inr hmq))
  have htxReady : s.nextEvent = .txReady → step s = .next { s.advance with txie := false } := fun he =>
    (step_of_event he).trans (congrArg _ (txHandler_of_nothing_to_send htx))
  have hexpiry : s.nextEvent = .timerExpiry → step s = .next s.advance := fun he =>
    (step_of_event he).trans (congrArg _ (timerHandler_of_disarmed htimer))
  refine ⟨fun he => ?_, htxReady, hexpiry, fun t hrx hpower hstep => ?_⟩
  · rw [hcontroller he, State.goto, State.advance_ctrl]
  · cases he : s.nextEvent with
    | controller =>
      rw [hcontroller he] at hstep
      cases hstep
      exact hq.advance.congr _ (by split <;> simp)
    | rxByte b => exact absurd he (hrx b)
    | txReady =>
      rw [htxReady he] at hstep
      cases hstep
      exact hq.advance.congr false hctl
    | timerExpiry =>
      rw [hexpiry he] at hstep
      cases hstep
      exact hq.advance
    | powerOn => exact absurd he hpower

/-! ### The RX dead end (R146) -/

theorem idleCheck_keeps_rx (s : State) :
    (idleCheck s).cfg = s.cfg ∧ (idleCheck s).rx = s.rx ∧ (idleCheck s).rxLines = s.rxLines := by
  rcases idleCheck_cases s with ⟨-, hrun⟩ | ⟨w, mq, -, -, hrun⟩ <;> rw [hrun] <;> exact ⟨rfl, rfl, rfl⟩

/-- The dead end is a matter of the RX FIFO, the line counter and the controller's place. -/
theorem State.RxDeadEnd.congr (h : s.RxDeadEnd) (hcfg : t.cfg = s.cfg) (hrx : t.rx = s.rx)
    (hlines : t.rxLines = s.rxLines) (hc : t.ctrl.ctl = .poll ∨ t.ctrl.ctl = .spin) : t.RxDeadEnd := by
  obtain ⟨hfull, hzero, -⟩ := h
  exact ⟨by rwa [hcfg, hrx], hlines.trans hzero, hc⟩

theorem State.RxDeadEnd.controllerTurn (h : s.RxDeadEnd) (hrun : controllerTurn s = .next t) :
    t.RxDeadEnd ∧ t.rx = s.rx := by
  obtain ⟨-, hzero, hc | hc⟩ := id h
  · rw [controllerTurn_of_poll hc, pollTransition_eq, if_pos hzero] at hrun
    cases hrun
    exact ⟨h.congr rfl rfl rfl (.inr rfl), rfl⟩
  · rw [controllerTurn_of_spin hc] at hrun
    cases hrun
    obtain ⟨hcfg, hrx, hlines⟩ := idleCheck_keeps_rx s
    exact ⟨h.congr hcfg hrx hlines (.inl rfl), hrx⟩

/-- Settles O53: a received byte is dropped, the other handlers do not touch the RX side, and the controller, with no line
counted, reads nothing. -/
theorem rxDeadEndLastsForEver : Obligations.RxDeadEndLastsForEver := by
  intro s t h hpower hstep
  have hadvance : s.advance.RxDeadEnd := by simpa [State.RxDeadEnd] using h
  rw [← State.advance_rx s]
  obtain ⟨hfull, -, hctl⟩ := id hadvance
  rcases step_cases hstep with ⟨-, hrun⟩ | ⟨b, -, rfl⟩ | ⟨-, rfl⟩ | ⟨-, rfl⟩ | ⟨he, -⟩
  · exact hadvance.controllerTurn hrun
  · rw [rxHandler_of_full hfull]
    exact ⟨hadvance, rfl⟩
  · rw [txHandler_frame]
    exact ⟨hadvance.congr rfl rfl rfl hctl, rfl⟩
  · rw [timerHandler_frame]
    exact ⟨hadvance.congr rfl rfl rfl hctl, rfl⟩
  · exact absurd he hpower

/-! ### Reading what is there (R81, R83) -/

/-- As many reads as there are bytes do not hold: they give the oldest bytes in order and leave the counted lines of the
rest. -/
theorem readBytes_of_contents {bytes rest : List Byte} (hok : s.rx.Ok s.cfg.nRx) (hl : s.LinesCounted)
    (hc : s.rx.contents s.cfg.nRx = bytes ++ rest) :
    ∃ rx, readBytes bytes.length s = some (bytes, { s with rx := rx, rxLines := rest.count terminator }) ∧
      rx.contents s.cfg.nRx = rest := by
  induction bytes generalizing s with
  | nil =>
    rw [List.nil_append] at hc
    refine ⟨s.rx, ?_, hc⟩
    rw [← hc, ← hl]
    rfl
  | cons b bytes ih =>
    rw [List.cons_append] at hc
    obtain ⟨rx, hpop, hrest, hread⟩ := State.readByte_eq_of_contents hok hl hc
    obtain ⟨rx', hrun, hrest'⟩ := ih (s := { s with rx := rx, rxLines := (bytes ++ rest).count terminator })
      (hok.pop hpop) (by rw [State.LinesCounted, hrest]) hrest
    refine ⟨rx', ?_, hrest'⟩
    simp only [List.length_cons, readBytes, hread, hrun]

/-- A counted line is a terminator among the bytes; up to the first one they are the line. -/
theorem State.LinesCounted.exists_line (hl : s.LinesCounted) (h : s.lineAvailable = true) :
    ∃ line rest, s.rx.contents s.cfg.nRx = line ++ terminator :: rest ∧ terminator ∉ line := by
  refine List.eq_append_cons_of_mem (List.count_pos_iff.1 ?_)
  rw [← hl]
  exact Nat.pos_of_ne_zero (by simpa [State.lineAvailable] using h)

/-- The lines counted in a buffer with one more line than `rest` at its head. -/
theorem State.LinesCounted.eq_succ {line rest : List Byte} (hl : s.LinesCounted)
    (hc : s.rx.contents s.cfg.nRx = line ++ terminator :: rest) (hline : terminator ∉ line) :
    s.rxLines = rest.count terminator + 1 := by
  rw [hl, hc, List.count_append, List.count_eq_zero_of_not_mem hline, List.count_cons_self, Nat.zero_add]

/-- Settles O14: the line and its terminator are bytes that the RX FIFO holds. -/
theorem availableLineIsReadWithoutHold : Obligations.AvailableLineIsReadWithoutHold := by
  intro s hs hl havailable
  obtain ⟨-, hok, -, -⟩ := hs
  obtain ⟨line, rest, hc, hline⟩ := hl.exists_line havailable
  obtain ⟨rx, hrun, hrest⟩ := readBytes_of_contents (bytes := line ++ [terminator]) (rest := rest) hok hl
    (by rw [hc]; simp)
  rw [List.length_append, List.length_singleton] at hrun
  refine ⟨line, _, hrun, hline, ?_, ?_, ?_⟩
  · rw [hc, hrest]
  · exact (hl.eq_succ hc hline).symm
  · rw [State.LinesCounted, hrest]

end Sys2Proof.Machine

/-! Runs of the controller alone (R103 to R108): a line discarded (O20), an empty frame consumed (O23), and a command read,
performed, answered and discarded (O22), each phase by induction on the bytes it reads or writes. -/

namespace Sys2Proof.Machine

variable {s t u : State} {b : Byte} {rest : List Byte} {es : List Event}

/-! ### The RX FIFO as it is read -/

/-- `g` is what reading leaves of the buffer `f` when `rest` is left to read: a pop moves the tail alone. -/
structure Fifo.DrainedTo (n : Nat) (f g : Fifo Byte) (rest : List Byte) : Prop where
  ok       : g.Ok n
  contents : g.contents n = rest
  mem      : g.mem = f.mem
  head     : g.head = f.head

theorem Fifo.DrainedTo.trans {n : Nat} {f g h : Fifo Byte} {mid : List Byte} (h1 : f.DrainedTo n g mid)
    (h2 : g.DrainedTo n h rest) : f.DrainedTo n h rest :=
  ⟨h2.ok, h2.contents, h2.mem.trans h1.mem, h2.head.trans h1.head⟩

/-- A read of the oldest byte (R81). -/
theorem State.readByte_drains (hok : s.rx.Ok s.cfg.nRx) (hl : s.LinesCounted)
    (hc : s.rx.contents s.cfg.nRx = b :: rest) :
    ∃ rx, s.rx.DrainedTo s.cfg.nRx rx rest ∧
      s.readByte = some (b, { s with rx := rx, rxLines := rest.count terminator }) := by
  obtain ⟨rx, hpop, hrest, hread⟩ := State.readByte_eq_of_contents hok hl hc
  have hokRx := hok.pop hpop
  obtain ⟨-, -, rfl⟩ := Fifo.pop_eq_some hpop
  exact ⟨_, ⟨hokRx, hrest, rfl, rfl⟩, hread⟩

/-- The state with the events to come set. -/
abbrev State.withSched (s : State) (es : List Event) : State := { s with sched := es }

/-- A run whose first event is the controller's goes on from the state that its turn answers. -/
theorem runSteps_controller (k : Nat) (hsched : s.sched = .controller :: es)
    (h : controllerTurn (s.withSched es) = .next t) : runSteps (k + 1) s = runSteps k t := by
  obtain ⟨hstep, -⟩ := nextEventIsFixedOrFree s
  exact runSteps_succ k ((hstep _ _ hsched).trans h)

/-! ### DISCARD over the rest of a line (R108) -/

theorem discardTransition_of_readByte (h : s.readByte = some (b, t)) :
    discardTransition s = if b = terminator then t.goto .spin else t := by
  simp only [discardTransition, h]

theorem runSteps_discard_byte (k : Nat) (hok : s.rx.Ok s.cfg.nRx) (hl : s.LinesCounted) (hctl : s.ctrl.ctl = .discard)
    (hc : s.rx.contents s.cfg.nRx = b :: rest) (hsched : s.sched = .controller :: es) :
    ∃ rx, s.rx.DrainedTo s.cfg.nRx rx rest ∧
      runSteps (k + 1) s = runSteps k { s with
        rx := rx, rxLines := rest.count terminator
        ctrl := { s.ctrl with ctl := if b = terminator then .spin else s.ctrl.ctl }, sched := es } := by
  obtain ⟨rx, hdrained, hread⟩ := State.readByte_drains (s := s.withSched es) (b := b) (rest := rest) hok hl hc
  have hturn := controllerTurn_of_discard (s := s.withSched es) hctl
  rw [discardTransition_of_readByte hread] at hturn
  refine ⟨rx, hdrained, runSteps_controller k hsched (hturn.trans ?_)⟩
  by_cases hb : b = terminator
  · rw [if_pos hb, if_pos hb]
    rfl
  · rw [if_neg hb, if_neg hb]

theorem runSteps_discard {junk : List Byte} (hok : s.rx.Ok s.cfg.nRx) (hl : s.LinesCounted)
    (hctl : s.ctrl.ctl = .discard) (hc : s.rx.contents s.cfg.nRx = junk ++ terminator :: rest) (hjunk : terminator ∉ junk)
    (hsched : s.sched = List.replicate (junk.length + 1) .controller ++ es) :
    ∃ rx, s.rx.DrainedTo s.cfg.nRx rx rest ∧
      runSteps (junk.length + 1) s = .next { s with
        rx := rx, rxLines := rest.count terminator, ctrl := { s.ctrl with ctl := .spin }, sched := es } := by
  induction junk generalizing s with
  | nil => exact runSteps_discard_byte (b := terminator) 0 hok hl hctl hc hsched
  | cons b junk ih =>
    rw [List.mem_cons, not_or] at hjunk
    obtain ⟨hb, hjunk⟩ := hjunk
    obtain ⟨rx, hdrained, hbyte⟩ :=
      runSteps_discard_byte (b := b) (rest := junk ++ terminator :: rest) (junk.length + 1) hok hl hctl hc hsched
    rw [if_neg (Ne.symm hb)] at hbyte
    obtain ⟨rx', hdrained', hrun⟩ := ih (s := { s with
        rx := rx, rxLines := (junk ++ terminator :: rest).count terminator
        sched := List.replicate (junk.length + 1) .controller ++ es })
      hdrained.ok (by rw [State.LinesCounted, hdrained.contents]) hctl hdrained.contents hjunk rfl
    exact ⟨rx', hdrained.trans hdrained', hbyte.trans hrun⟩

/-- Settles O20: each turn reads one byte, and the terminator ends it. -/
theorem discardReadsThroughTerminator : Obligations.DiscardReadsThroughTerminator := by
  intro s junk rest es hs hl hctl hc hjunk hsched
  obtain ⟨-, hok, -, -⟩ := hs
  obtain ⟨rx, hdrained, hrun⟩ := runSteps_discard hok hl hctl hc hjunk hsched
  have hcount : rest.count terminator = s.rxLines - 1 := by
    rw [hl.eq_succ hc hjunk, Nat.add_sub_cancel]
  rw [hcount] at hrun
  exact ⟨rx, hrun, hdrained.contents, hdrained.mem, hdrained.head⟩

/-! ### POLL and READ_OP (R103, R104) -/

theorem runSteps_poll (k : Nat) (hctl : s.ctrl.ctl = .poll) (hlines : s.rxLines ≠ 0)
    (hsched : s.sched = .controller :: es) :
    runSteps (k + 1) s = runSteps k { s with ctrl := { s.ctrl with ctl := .readOp }, sched := es } := by
  have hturn := controllerTurn_of_poll (s := s.withSched es) hctl
  rw [pollTransition_eq, if_neg hlines] at hturn
  exact runSteps_controller k hsched hturn

theorem runSteps_readOp (k : Nat) (hok : s.rx.Ok s.cfg.nRx) (hl : s.LinesCounted) (hctl : s.ctrl.ctl = .readOp)
    (hc : s.rx.contents s.cfg.nRx = b :: rest) (hsched : s.sched = .controller :: es) :
    ∃ rx, s.rx.DrainedTo s.cfg.nRx rx rest ∧
      runSteps (k + 1) s = runSteps k { s with
        rx := rx, rxLines := rest.count terminator
        ctrl := { s.ctrl with op := b, pcount := 0, ctl := if b = terminator then .spin else afterOpcode b }
        sched := es } := by
  obtain ⟨rx, hdrained, hread⟩ := State.readByte_drains (s := s.withSched es) (b := b) (rest := rest) hok hl hc
  have hturn := controllerTurn_of_readOp (s := s.withSched es) hctl
  rw [readOpTransition_of_readByte hread, ← afterOpcode_eq] at hturn
  exact ⟨rx, hdrained, runSteps_controller k hsched hturn⟩

/-- Settles O23: POLL finds the line, READ_OP reads its one byte. -/
theorem emptyFrameIsConsumedAlone : Obligations.EmptyFrameIsConsumedAlone := by
  intro s rest es h hctl hc hsched
  obtain ⟨-, hok, -, -⟩ := h.shaped
  have hlines : s.rxLines = rest.count terminator + 1 := h.lines.eq_succ (line := []) hc List.not_mem_nil
  rw [runSteps_poll 1 hctl (by omega) hsched]
  obtain ⟨rx, hdrained, hrun⟩ := runSteps_readOp (rest := rest) 0
    (s := { s with ctrl := { s.ctrl with ctl := .readOp }, sched := .controller :: es }) hok h.lines rfl hc rfl
  refine ⟨rx, hrun.trans ?_, hdrained.contents⟩
  rw [hlines, Nat.add_sub_cancel, if_pos rfl]
  rfl

/-! ### PAYLOAD (R105) -/

/-- The bytes of `pbuf` up to the one just written. -/
theorem take_setIfInBounds (q : Vector Byte 12) {k : Nat} (hk : k < 12) (b : Byte) :
    (q.setIfInBounds k b).toList.take (k + 1) = q.toList.take k ++ [b] := by
  obtain ⟨⟨l⟩, hl⟩ := q
  have hlen : k < l.length := by simpa [← hl] using hk
  simp [Vector.setIfInBounds, List.take_add_one, List.take_set, hlen, List.set_eq_of_length_le]

theorem runSteps_payload_byte (k : Nat) (hok : s.rx.Ok s.cfg.nRx) (hl : s.LinesCounted) (hctl : s.ctrl.ctl = .payload)
    (hk : s.ctrl.pcount < 12) (hc : s.rx.contents s.cfg.nRx = b :: rest) (hsched : s.sched = .controller :: es) :
    ∃ rx, s.rx.DrainedTo s.cfg.nRx rx rest ∧
      runSteps (k + 1) s = runSteps k { s with
        rx := rx, rxLines := rest.count terminator
        ctrl := { s.ctrl with
          pbuf := s.ctrl.pbuf.setIfInBounds s.ctrl.pcount b
          pcount := s.ctrl.pcount + 1
          ctl := if s.ctrl.pcount + 1 = 12 then .exec else .payload }
        sched := es } := by
  obtain ⟨rx, hdrained, hread⟩ := State.readByte_drains (s := s.withSched es) (b := b) (rest := rest) hok hl hc
  have hturn := controllerTurn_of_payload (s := s.withSched es) hctl
  rw [payloadTransition_of_readByte (s := s.withSched es) hk hread] at hturn
  dsimp only at hturn
  rw [hctl] at hturn
  exact ⟨rx, hdrained, runSteps_controller k hsched hturn⟩

/-- The remaining payload bytes are read into `pbuf`, behind those already there. -/
theorem runSteps_payload {bytes : List Byte} (hok : s.rx.Ok s.cfg.nRx) (hl : s.LinesCounted)
    (hctl : s.ctrl.ctl = if s.ctrl.pcount = 12 then .exec else .payload) (hlen : s.ctrl.pcount + bytes.length = 12)
    (hc : s.rx.contents s.cfg.nRx = bytes ++ rest)
    (hsched : s.sched = List.replicate bytes.length .controller ++ es) :
    ∃ rx q, s.rx.DrainedTo s.cfg.nRx rx rest ∧ q.toList = s.ctrl.pbuf.toList.take s.ctrl.pcount ++ bytes ∧
      runSteps bytes.length s = .next { s with
        rx := rx, rxLines := rest.count terminator
        ctrl := { s.ctrl with pbuf := q, pcount := 12, ctl := .exec }, sched := es } := by
  induction bytes generalizing s with
  | nil =>
    have hk : s.ctrl.pcount = 12 := hlen
    rw [hk, if_pos rfl] at hctl
    rw [List.nil_append] at hc
    rw [List.length_nil, List.replicate_zero, List.nil_append] at hsched
    refine ⟨s.rx, s.ctrl.pbuf, ⟨hok, hc, rfl, rfl⟩, by simp [hk], ?_⟩
    rw [← hc, ← hl, ← hctl, ← hk, ← hsched]
    rfl
  | cons b bytes ih =>
    rw [List.length_cons] at hlen
    have hk : s.ctrl.pcount < 12 := by omega
    rw [if_neg hk.ne] at hctl
    obtain ⟨rx, hdrained, hbyte⟩ :=
      runSteps_payload_byte (rest := bytes ++ rest) bytes.length hok hl hctl hk hc hsched
    obtain ⟨rx', q, hdrained', hq, hrun⟩ := ih (s := { s with
        rx := rx, rxLines := (bytes ++ rest).count terminator
        ctrl := { s.ctrl with
          pbuf := s.ctrl.pbuf.setIfInBounds s.ctrl.pcount b
          pcount := s.ctrl.pcount + 1
          ctl := if s.ctrl.pcount + 1 = 12 then .exec else .payload }
        sched := List.replicate bytes.length .controller ++ es })
      hdrained.ok (by rw [State.LinesCounted, hdrained.contents]) rfl (by dsimp only; omega)
      hdrained.contents rfl
    refine ⟨rx', q, hdrained.trans hdrained', ?_, hbyte.trans hrun⟩
    rw [hq]
    dsimp only
    rw [take_setIfInBounds _ hk, List.append_assoc, List.singleton_append]

/-- From READ_OP an opcode byte and its payload are read, and the controller stands in EXEC with both (R104, R105). -/
theorem runSteps_receive {op : Byte} {body : List Byte} (hok : s.rx.Ok s.cfg.nRx) (hl : s.LinesCounted)
    (hctl : s.ctrl.ctl = .readOp) (hop : op ≠ terminator) (hlen : body.length = payloadLength op)
    (hc : s.rx.contents s.cfg.nRx = op :: (body ++ rest))
    (hsched : s.sched = List.replicate (body.length + 1) .controller ++ es) :
    ∃ rx q, s.rx.DrainedTo s.cfg.nRx rx rest ∧ body <+: q.toList ∧
      runSteps (body.length + 1) s = .next { s with
        rx := rx, rxLines := rest.count terminator
        ctrl := { s.ctrl with op := op, pbuf := q, pcount := payloadLength op, ctl := .exec }, sched := es } := by
  obtain ⟨rx, hdrained, hread⟩ := runSteps_readOp body.length hok hl hctl hc hsched
  rw [if_neg hop, afterOpcode] at hread
  rcases payloadLength_eq_or op with hlong | hnone
  · rw [hlong] at hlen hread ⊢
    obtain ⟨rx', q, hdrained', hq, hrun⟩ := runSteps_payload (s := { s with
        rx := rx, rxLines := (body ++ rest).count terminator
        ctrl := { s.ctrl with op := op, pcount := 0, ctl := .payload }
        sched := List.replicate body.length .controller ++ es })
      hdrained.ok (by rw [State.LinesCounted, hdrained.contents]) rfl (by simpa using hlen) hdrained.contents rfl
    rw [List.take_zero, List.nil_append] at hq
    exact ⟨rx', q, hdrained.trans hdrained', by rw [hq], hread.trans hrun⟩
  · rw [hnone] at hlen hread ⊢
    obtain rfl := List.length_eq_zero_iff.1 hlen
    exact ⟨rx, s.ctrl.pbuf, hdrained, List.nil_prefix, hread⟩

/-! ### EXEC (R106): a command depends on the positions, the queue and the parameters only -/

theorem enqueueAbsolute_congr (hcfg : u.cfg = s.cfg) (hmq : u.mq = s.mq) (p : Pos4) :
    (enqueueAbsolute u p).1 = (enqueueAbsolute s p).1 ∧ (enqueueAbsolute u p).2.mq = (enqueueAbsolute s p).2.mq := by
  rw [enqueueAbsolute, enqueueAbsolute, hcfg, hmq]
  split
  · exact ⟨rfl, rfl⟩
  · exact ⟨rfl, hmq⟩

theorem State.endgoal_congr (hcfg : u.cfg = s.cfg) (hmotion : u.motion = s.motion) (hmq : u.mq = s.mq) :
    u.endgoal = s.endgoal := by
  rw [State.endgoal, State.endgoal, hcfg, hmotion, hmq]

theorem commandEffect_congr (hcfg : u.cfg = s.cfg) (hmotion : u.motion = s.motion) (hmq : u.mq = s.mq)
    (hemitted : u.emitted = s.emitted) (i : Instr) :
    (commandEffect i u).mq = (commandEffect i s).mq ∧ (commandEffect i u).emitted = (commandEffect i s).emitted ∧
      commandResponse i u = commandResponse i s := by
  have hgoal := State.endgoal_congr hcfg hmotion hmq
  have henq := enqueueAbsolute_congr hcfg hmq
  cases i with
  | moveAbs p =>
    obtain ⟨hok, hqueue⟩ := henq p
    refine ⟨hqueue, ?_, ?_⟩
    · rw [commandEffect_emitted (i := .moveAbs p) nofun nofun, commandEffect_emitted (i := .moveAbs p) nofun nofun,
        hemitted]
    · rw [commandResponse, commandResponse, hok]
  | moveRel d =>
    obtain ⟨hok, hqueue⟩ := henq (satAdd4 s.cfg s.endgoal d)
    refine ⟨?_, ?_, ?_⟩
    · rw [commandEffect, commandEffect, enqueueRelative, enqueueRelative, hcfg, hgoal, hqueue]
    · rw [commandEffect_emitted (i := .moveRel d) nofun nofun, commandEffect_emitted (i := .moveRel d) nofun nofun,
        hemitted]
    · rw [commandResponse, commandResponse, enqueueRelative, enqueueRelative, hcfg, hgoal, hok]
  | homeX => exact ⟨hmq, congrArg (List.cons _) hemitted, rfl⟩
  | homeY => exact ⟨hmq, congrArg (List.cons _) hemitted, rfl⟩
  | abort => exact ⟨congrArg Fifo.clear hmq, hemitted, rfl⟩
  | getPos =>
    refine ⟨hmq, hemitted, ?_⟩
    rw [commandResponse, commandResponse, State.currentPosition, State.currentPosition, hcfg, hmotion]
  | getTarget =>
    refine ⟨hmq, hemitted, ?_⟩
    rw [commandResponse, commandResponse, State.targetPosition, State.targetPosition, hcfg, hgoal]
  | _ => exact ⟨hmq, hemitted, rfl⟩

theorem runSteps_exec (k : Nat) {i : Instr} (hi : i ≠ .emptyFrame) (hctl : s.ctrl.ctl = .exec)
    (hop : s.ctrl.op ≠ terminator) (hdec : decodeOp s.cfg.codecOrder s.ctrl.op s.ctrl.pbuf = i)
    (hsched : s.sched = .controller :: es) :
    runSteps (k + 1) s = runSteps k { s with
      mq := (commandEffect i s).mq, emitted := (commandEffect i s).emitted
      ctrl := { s.ctrl with resp := commandResponse i s, ridx := 0, ctl := .respond }, sched := es } := by
  have hturn := controllerTurn_of_exec (s := s.withSched es) hctl
  obtain ⟨hmq, hemitted, hresp⟩ := commandEffect_congr (s := s) (u := s.withSched es) rfl rfl rfl rfl i
  rw [execTransition_of_ne_terminator (s := s.withSched es) hop, hdec, exec_of_ne_emptyFrame hi, commandEffect_frame,
    hmq, hemitted, hresp] at hturn
  exact runSteps_controller k hsched hturn

/-! ### RESPOND (R107) -/

theorem runSteps_respond_byte (k : Nat) {tx : Fifo Byte} (hctl : s.ctrl.ctl = .respond)
    (hb : s.ctrl.resp[s.ctrl.ridx]? = some b) (hpush : s.tx.push s.cfg.nTx b = some tx)
    (hsched : s.sched = .controller :: es) :
    runSteps (k + 1) s = runSteps k { s with
      tx := tx, txie := true, ctrl := { s.ctrl with ridx := s.ctrl.ridx + 1 }, sched := es } := by
  have hturn := controllerTurn_of_respond (s := s.withSched es) hctl
  rw [respondTransition_of_push (s := s.withSched es) hb hpush] at hturn
  exact runSteps_controller k hsched hturn

/-- With room for all of it, the rest of the response goes behind the bytes waiting in the TX FIFO. -/
theorem runSteps_respond {bytes : List Byte} (hok : s.tx.Ok s.cfg.nTx) (hctl : s.ctrl.ctl = .respond)
    (hresp : s.ctrl.resp.drop s.ctrl.ridx = bytes) (hle : s.ctrl.ridx ≤ s.ctrl.resp.length)
    (hroom : s.tx.count s.cfg.nTx + bytes.length < s.cfg.nTx)
    (hsched : s.sched = List.replicate (bytes.length + 1) .controller ++ es) :
    ∃ tx ie, tx.contents s.cfg.nTx = s.tx.contents s.cfg.nTx ++ bytes ∧
      runSteps (bytes.length + 1) s = .next { s with
        tx := tx, txie := ie, ctrl := { s.ctrl with ridx := s.ctrl.resp.length, ctl := .discard }, sched := es } := by
  induction bytes generalizing s with
  | nil =>
    have hover : s.ctrl.ridx = s.ctrl.resp.length := le_antisymm hle (List.drop_eq_nil_iff.1 hresp)
    have hturn := controllerTurn_of_respond (s := s.withSched es) hctl
    rw [respondTransition_of_over (s := s.withSched es) hover] at hturn
    refine ⟨s.tx, s.txie, (List.append_nil _).symm, ?_⟩
    rw [← hover]
    exact runSteps_controller 0 hsched hturn
  | cons b bytes ih =>
    have hb : s.ctrl.resp[s.ctrl.ridx]? = some b := by
      rw [← List.head?_drop, hresp, List.head?_cons]
    have hdrop : s.ctrl.resp.drop (s.ctrl.ridx + 1) = bytes := by
      rw [← List.tail_drop, hresp, List.tail_cons]
    rw [List.length_cons] at hroom
    have hfree : s.tx.isFull s.cfg.nTx = false := by
      rw [hok.isFull_eq_false_iff, Fifo.length_contents]
      omega
    obtain ⟨tx, hpush⟩ := Fifo.push_isSome_of_not_full (x := b) hfree
    have hroomLeft : tx.count s.cfg.nTx + bytes.length < s.cfg.nTx := by
      rw [hok.count_push hpush]
      omega
    obtain ⟨tx', ie, hcontents, hrun⟩ := ih (s := { s with
        tx := tx, txie := true, ctrl := { s.ctrl with ridx := s.ctrl.ridx + 1 }
        sched := List.replicate (bytes.length + 1) .controller ++ es })
      (hok.push hpush) hctl hdrop (List.getElem?_eq_some_iff.1 hb).1 hroomLeft rfl
    refine ⟨tx', ie, ?_, (runSteps_respond_byte _ hctl hb hpush hsched).trans hrun⟩
    rw [hcontents, hok.contents_push hpush, List.append_assoc, List.singleton_append]

/-! ### A whole command (R55 to R57, R103 to R108) -/

/-- The frame of a command is its opcode byte, its payload and the terminator; the payload's bytes at the front of `pbuf`
make EXEC perform it. -/
theorem encode_eq_opcode_payload {i : Instr} (hwf : i.wf = true) (hi : i ≠ .emptyFrame) (o : CodecOrder) :
    ∃ body, encode o i = i.opcode :: (body ++ [terminator]) ∧ body.length = payloadLength i.opcode ∧
      ∀ q : Vector Byte 12, body <+: q.toList → decodeOp o i.opcode q = i := by
  have hmove : ∀ p (q : Vector Byte 12), encode4 o p <+: q.toList → decode4 o q = p := by
    intro p q hprefix
    obtain ⟨r, hr, hdec⟩ := encode4_eq_and_decode4 o p
    rw [← hr] at hprefix
    rw [← hdec, Vector.toList_inj.1 (hprefix.eq_of_length (by simp))]
  have hlen : ∀ p, (encode4 o p).length = 12 := fun p => by
    simp [encode4, Laws.Frame.length_encodePos]
  cases i with
  | moveAbs p => exact ⟨_, rfl, hlen p, fun q hq => congrArg Instr.moveAbs (hmove p q hq)⟩
  | moveRel d => exact ⟨_, rfl, hlen d, fun q hq => congrArg Instr.moveRel (hmove d q hq)⟩
  | unassigned op =>
    exact ⟨[], rfl, (payloadLength_of_isUnassigned hwf).symm, fun q _ => decodeOp_of_isUnassigned hwf o q⟩
  | emptyFrame => exact absurd rfl hi
  | _ => exact ⟨[], rfl, rfl, fun q _ => rfl⟩

/-- A run that ends in EXEC in a state `u` goes on: the command is performed, its response written and its terminator
discarded. What it does and answers is told of any state `s` with the positions, the queue and the parameters of `u`. -/
theorem runSteps_perform {w : State} {k : Nat} {i : Instr} (hreceive : runSteps k w = .next u) (hcfg : u.cfg = s.cfg)
    (hmotion : u.motion = s.motion) (hmq : u.mq = s.mq) (hemitted : u.emitted = s.emitted) (hi : i ≠ .emptyFrame)
    (hrx : u.rx.Ok u.cfg.nRx) (htx : u.tx.Ok u.cfg.nTx) (hl : u.LinesCounted) (hctl : u.ctrl.ctl = .exec)
    (hop : u.ctrl.op ≠ terminator) (hdec : decodeOp u.cfg.codecOrder u.ctrl.op u.ctrl.pbuf = i)
    (hc : u.rx.contents u.cfg.nRx = terminator :: rest)
    (hroom : u.tx.count u.cfg.nTx + (commandResponse i s).length < u.cfg.nTx)
    (hsched : u.sched = List.replicate ((commandResponse i s).length + 3) .controller ++ es) :
    ∃ rx tx ie k', rx.contents u.cfg.nRx = rest ∧
      tx.contents u.cfg.nTx = u.tx.contents u.cfg.nTx ++ commandResponse i s ∧ k'.ctl = .spin ∧
      runSteps (k + ((commandResponse i s).length + 3)) w = .next { u with
        mq := (commandEffect i s).mq, emitted := (commandEffect i s).emitted, rx := rx, rxLines := rest.count terminator
        tx := tx, txie := ie, ctrl := k', sched := es } := by
  have hexec := runSteps_exec ((commandResponse i s).length + 2) hi hctl hop hdec hsched
  obtain ⟨hmqEffect, hemittedEffect, hresp⟩ := commandEffect_congr hcfg hmotion hmq hemitted i
  rw [hmqEffect, hemittedEffect, hresp] at hexec
  obtain ⟨tx, ie, hsent, hrespond⟩ := runSteps_respond (es := .controller :: es) (s := { u with
      mq := (commandEffect i s).mq, emitted := (commandEffect i s).emitted
      ctrl := { u.ctrl with resp := commandResponse i s, ridx := 0, ctl := .respond }
      sched := List.replicate ((commandResponse i s).length + 2) .controller ++ es })
    htx rfl rfl (Nat.zero_le _) hroom (by rw [List.replicate_succ', List.append_assoc]; rfl)
  obtain ⟨rx, hdrained, hdiscard⟩ := runSteps_discard_byte (b := terminator) (rest := rest) (es := es) 0 (s := { u with
      mq := (commandEffect i s).mq, emitted := (commandEffect i s).emitted, tx := tx, txie := ie
      ctrl := { u.ctrl with resp := commandResponse i s, ridx := (commandResponse i s).length, ctl := .discard }
      sched := .controller :: es })
    hrx hl rfl hc rfl
  have hrun : runSteps (k + ((commandResponse i s).length + 3)) w = runSteps 0 _ :=
    calc runSteps (k + ((commandResponse i s).length + 3)) w
        = runSteps ((commandResponse i s).length + 3) u := runSteps_add _ _ hreceive
      _ = runSteps ((commandResponse i s).length + 1 + 1) _ := hexec
      _ = runSteps 1 _ := runSteps_add _ _ hrespond
      _ = runSteps 0 _ := hdiscard
  rw [if_pos rfl] at hrun
  exact ⟨rx, tx, ie, _, hdrained.contents, hsent, rfl, hrun⟩

/-- Settles O22: POLL, READ_OP and PAYLOAD receive the command, and EXEC, RESPOND and DISCARD perform it. -/
theorem commandIsReadPerformedAndAnswered : Obligations.CommandIsReadPerformedAndAnswered := by
  intro s v i rest es h hctl hwf hi hc hexec hroom hsched
  obtain ⟨-, hrx, htx, -⟩ := h.shaped
  obtain ⟨hmq, hemitted⟩ := exec_mq_emitted hexec
  have hresp : v.ctrl.resp = commandResponse i s := by
    rw [exec_of_ne_emptyFrame hi] at hexec
    cases hexec
    rfl
  obtain ⟨body, hframe, hlen, hdec⟩ := encode_eq_opcode_payload hwf hi s.cfg.codecOrder
  have hclean := terminator_notMem_dropLast_encode s.cfg.codecOrder hwf
  rw [hframe, ← List.cons_append, List.dropLast_concat] at hclean
  have hop : i.opcode ≠ terminator := fun heq => hclean (by simp [heq])
  have hbytes : s.rx.contents s.cfg.nRx = i.opcode :: (body ++ terminator :: rest) := by
    rw [hc, hframe]
    simp
  have hlines : s.rxLines = rest.count terminator + 1 := h.lines.eq_succ (line := i.opcode :: body) hbytes hclean
  have hturns : (encode s.cfg.codecOrder i).length + v.ctrl.resp.length + 3 =
      (body.length + 1) + ((commandResponse i s).length + 3) + 1 := by
    rw [hframe, hresp, List.length_cons, List.length_append, List.length_singleton]
    omega
  rw [hturns, List.replicate_succ, List.replicate_add] at hsched
  rw [hturns, runSteps_poll _ hctl (by omega) hsched]
  obtain ⟨rx, q, hdrained, hprefix, hreceive⟩ := runSteps_receive (rest := terminator :: rest)
    (es := List.replicate ((commandResponse i s).length + 3) .controller ++ es)
    (s := { s with
      ctrl := { s.ctrl with ctl := .readOp }
      sched := List.replicate (body.length + 1) .controller ++
        List.replicate ((commandResponse i s).length + 3) .controller ++ es })
    hrx h.lines rfl hop hlen hbytes (List.append_assoc _ _ _)
  obtain ⟨rx', tx, ie, k, hrest, hsent, hspin, hrun⟩ := runSteps_perform (s := s) hreceive rfl rfl rfl rfl hi
    hdrained.ok htx (by rw [State.LinesCounted, hdrained.contents]) rfl hop (hdec q hprefix) hdrained.contents
    (by rwa [← hresp]) rfl
  refine ⟨_, hrun, hspin, hrest, hlines.symm, ?_, hmq.symm, hemitted.symm, rfl, rfl, rfl⟩
  rw [hresp]
  exact hsent

end Sys2Proof.Machine

/-! A whole move (R96 to R102): what a number of ticks does to the distances and to the step requests, the run of SPIN and
expiries that takes them, and from both the exact length of a move (O38). -/

namespace Sys2Proof.Machine

variable {s t : State} {m : Motion} {w : Pos4} {es : List Event}

/-! ### One tick and many (R99) -/

/-- The motion state after one tick, its expiry consumed. -/
def Motion.tick (m : Motion) : Motion := m.consumed.stepped.settle

/-- What `k` ticks add to the record of emissions. -/
def emitTicks (physical : Axes Bool) : Nat → Motion → List Emission → List Emission
  | 0, _, out => out
  | k + 1, m, out => emitTicks physical k m.tick (emitPulses (tickPulses physical m) out)

@[simp] theorem Motion.tick_target (m : Motion) : m.tick.target = m.target := by simp [Motion.tick]

@[simp] theorem Motion.tick_dir (m : Motion) : m.tick.dir = m.dir := by simp [Motion.tick]

theorem Motion.Aimed.tick (h : m.Aimed) : m.tick.Aimed :=
  Motion.Aimed.settle (Motion.Aimed.stepped (m := m.consumed) h)

/-- A tick takes each axis one unit nearer to the target. -/
theorem Motion.Aimed.axisDistance_tick (h : m.Aimed) (a : Axis) :
    axisDistance m.tick.current m.tick.target a = axisDistance m.current m.target a - 1 := by
  have hto := Motion.Aimed.toInt_stepped (m := m.consumed) h a
  rw [Motion.tick_target, axisDistance, Motion.tick, Motion.settle_current, hto]
  exact natAbs_sub_add_sign _ _

theorem axisDistance_eq_zero_iff {c t : Pos4} {a : Axis} : axisDistance c t a = 0 ↔ c.get a = t.get a := by
  rw [axisDistance, Int.natAbs_eq_zero, sub_eq_zero]
  exact ⟨fun h => BitVec.eq_of_toInt_eq h.symm, fun h => by rw [h]⟩

theorem axisDistance_le_moveLength (c t : Pos4) (a : Axis) : axisDistance c t a ≤ moveLength c t := by
  unfold moveLength
  cases a <;> omega

theorem moveLength_eq_zero_iff {c t : Pos4} : moveLength c t = 0 ↔ c = t := by
  constructor
  · intro h
    refine Axes.ext_get fun a => axisDistance_eq_zero_iff.1 ?_
    have hle := axisDistance_le_moveLength c t a
    omega
  · rintro rfl
    simp [moveLength, axisDistance]

theorem pulseCount_cons_pulses (a : Axis) (d : Bool) (p : Axes (Option Bool)) (out : List Emission) :
    pulseCount a d (.pulses p :: out) = pulseCount a d out + if p.get a = some d then 1 else 0 := by
  rw [pulseCount, List.countP_cons]
  simp [pulseCount]

/-- A tick adds one step request for each physical axis short of its target, in its direction (R98). -/
theorem pulseCount_emitPulses (physical : Axes Bool) (m : Motion) (out : List Emission) (a : Axis) (d : Bool) :
    pulseCount a d (emitPulses (tickPulses physical m) out) = pulseCount a d out +
      if physical.get a = true ∧ d = m.dir.get a then min 1 (axisDistance m.current m.target a) else 0 := by
  have hget := tickPulses_get physical m a
  have hshort : m.current.get a ≠ m.target.get a ↔ 1 ≤ axisDistance m.current m.target a := by
    rw [Ne, ← axisDistance_eq_zero_iff]
    omega
  simp only [hshort] at hget
  rcases emitPulses_cases (tickPulses physical m) out with ⟨hnone, hrun⟩ | hrun
  · have hnot : ¬ (1 ≤ axisDistance m.current m.target a ∧ physical.get a = true) := fun hpulse => by
      rw [hnone a, if_pos hpulse] at hget
      cases hget
    rw [hrun]
    split
    · next hdir =>
      have hthere : ¬ 1 ≤ axisDistance m.current m.target a := fun hle => hnot ⟨hle, hdir.1⟩
      omega
    · rfl
  · rw [hrun, pulseCount_cons_pulses, hget]
    by_cases hpulse : 1 ≤ axisDistance m.current m.target a ∧ physical.get a = true
    · rw [if_pos hpulse, min_eq_left hpulse.1]
      simp [hpulse.2, eq_comm]
    · rw [if_neg hpulse, if_neg nofun]
      split
      · next hdir =>
        have hthere : ¬ 1 ≤ axisDistance m.current m.target a := fun hle => hpulse ⟨hle, hdir.1⟩
        omega
      · rfl

/-- What `k` ticks do: the distances go down by `k`, and each unit of a physical axis is one step request. -/
theorem Motion.Aimed.ticks (h : m.Aimed) (physical : Axes Bool) (k : Nat) (out : List Emission) (a : Axis) (d : Bool) :
    (Motion.tick^[k] m).target = m.target ∧
      axisDistance (Motion.tick^[k] m).current m.target a = axisDistance m.current m.target a - k ∧
      pulseCount a d (emitTicks physical k m out) = pulseCount a d out +
        if physical.get a = true ∧ d = m.dir.get a then min k (axisDistance m.current m.target a) else 0 := by
  induction k generalizing m out with
  | zero => simp [emitTicks]
  | succ k ih =>
    obtain ⟨htarget, hdistance, hpulses⟩ := ih h.tick (emitPulses (tickPulses physical m) out)
    rw [Motion.tick_target] at htarget
    have hnear := h.axisDistance_tick a
    rw [hnear, Motion.tick_dir, pulseCount_emitPulses] at hpulses
    rw [Motion.tick_target] at hdistance hnear
    rw [hnear] at hdistance
    rw [Function.iterate_succ_apply, emitTicks, hpulses]
    refine ⟨htarget, by omega, ?_⟩
    split <;> omega

theorem Motion.Aimed.moveLength_ticks (h : m.Aimed) (k : Nat) :
    moveLength (Motion.tick^[k] m).current m.target = moveLength m.current m.target - k := by
  have hdistance : ∀ a, axisDistance (Motion.tick^[k] m).current m.target a = axisDistance m.current m.target a - k := by
    intro a
    obtain ⟨-, hdistance, -⟩ := h.ticks ⟨false, false, false, false⟩ k [] a true
    exact hdistance
  have hmax : ∀ x y : Nat, max (x - k) (y - k) = max x y - k := by omega
  simp only [moveLength, hdistance, hmax]

/-! ### The run of a move (R100, R101) -/

/-- While the move goes on, each expiry takes one tick. -/
theorem runSteps_expiries {k : Nat} (hm : s.motion.Sound) (ha : s.motion.Aimed)
    (hk : k ≤ moveLength s.motion.current s.motion.target)
    (hsched : s.sched = List.replicate k .timerExpiry ++ es) :
    runSteps k s = .next { s with
      motion := Motion.tick^[k] s.motion, emitted := emitTicks s.cfg.physical k s.motion s.emitted, sched := es } := by
  induction k generalizing s with
  | zero =>
    rw [List.replicate_zero, List.nil_append] at hsched
    rw [← hsched]
    rfl
  | succ k ih =>
    have hshort : s.motion.current ≠ s.motion.target := fun heq => by
      rw [moveLength_eq_zero_iff.2 heq] at hk
      omega
    have hmoving : s.motion.moving = true := by
      by_contra hidle
      exact hshort (hm.idle (by simpa using hidle))
    obtain ⟨harmed, -⟩ := hm.goesOn hmoving
    have hstep := step_of_armed_timerExpiry hm.timer (State.nextEvent_cons hsched) harmed
    rw [State.advance_cons hsched] at hstep
    rw [runSteps_succ k hstep, ih (hm.expiry_tick harmed) ha.tick ?_ rfl]
    · rfl
    · have hlen := ha.moveLength_ticks 1
      rw [Function.iterate_one] at hlen
      dsimp only
      rw [← Motion.tick, Motion.tick_target, hlen]
      omega

theorem Motion.consumed_of_disarmed (h : m.timerArmed = false) : m.consumed = m := by
  rw [Motion.consumed, ← h]

/-- From SPIN, a waypoint's move is one tick in SPIN and one at each expiry. -/
theorem runSteps_move {rest : List Pos4} {j : Nat} (h : s.Inv) (hctl : s.ctrl.ctl = .spin)
    (hidle : s.motion.moving = false) (hc : s.mq.contents s.cfg.nMq = w :: rest)
    (hj : j ≤ moveLength s.motion.current w - 1)
    (hsched : s.sched = .controller :: (List.replicate j .timerExpiry ++ es)) :
    ∃ mq, mq.contents s.cfg.nMq = rest ∧ runSteps (j + 1) s = .next { s with
      mq := mq, motion := Motion.tick^[j + 1] (s.motion.begin w)
      emitted := emitTicks s.cfg.physical (j + 1) (s.motion.begin w) s.emitted
      ctrl := { s.ctrl with ctl := .poll }, sched := es } := by
  obtain ⟨-, -, -, hok⟩ := h.shaped
  have hsound := h.dataInv.motion
  have haimed : (s.motion.begin w).Aimed := s.motion.dirAgrees_begin w rfl
  have hdisarmed := hsound.timerArmed_of_idle hidle
  have htick : (s.motion.begin w).tick = (s.motion.begin w).stepped.settle := by
    rw [Motion.tick, Motion.consumed_of_disarmed (m := s.motion.begin w) hdisarmed]
  obtain ⟨mq, hpop, -, hrest⟩ := hok.pop_of_contents hc
  have hstep := step_of_spin_pop (State.nextEvent_cons hsched) hctl hidle hpop
  rw [State.advance_cons hsched, ← htick] at hstep
  have hlen := haimed.moveLength_ticks 1
  rw [Function.iterate_one, Motion.begin_target, Motion.begin_current] at hlen
  have hmove := runSteps_expiries (k := j) (es := es) (s := { s with
      mq := mq, motion := (s.motion.begin w).tick
      emitted := emitPulses (tickPulses s.cfg.physical (s.motion.begin w)) s.emitted
      ctrl := { s.ctrl with ctl := .poll }, sched := List.replicate j .timerExpiry ++ es })
    (htick ▸ hsound.begin_tick hidle w) haimed.tick
    (by rw [Motion.tick_target, Motion.begin_target, hlen]; exact hj) rfl
  exact ⟨mq, hrest, (runSteps_succ j hstep).trans hmove⟩

/-- A sound motion state at its target is no move in flight. -/
theorem Motion.Sound.over (h : m.Sound) (hthere : m.current = m.target) : m.moving = false ∧ m.timerArmed = false := by
  have hidle : m.moving = false := by
    by_contra hmoving
    obtain ⟨-, hshort⟩ := h.goesOn (by simpa using hmoving)
    exact hshort hthere
  exact ⟨hidle, h.timerArmed_of_idle hidle⟩

theorem State.Inv.runSteps {k : Nat} (h : s.Inv) (hrun : runSteps k s = .next t) : t.Inv := by
  induction k generalizing s with
  | zero =>
    cases hrun
    exact h
  | succ k ih =>
    obtain ⟨u, hstep, hu⟩ := h.step
    rw [runSteps_succ k hstep] at hrun
    exact ih hu hrun

/-- Settles O38: a move of length `M` is over after `max 1 M` ticks and not before. -/
theorem moveTakesExactlyItsSteps : Obligations.MoveTakesExactlyItsSteps := by
  intro s w rest es h hctl hidle hc hsched
  have haimed : (s.motion.begin w).Aimed := s.motion.dirAgrees_begin w rfl
  have hlength := haimed.moveLength_ticks
  have htarget : ∀ k, (Motion.tick^[k] (s.motion.begin w)).target = w := fun k =>
    (haimed.ticks s.cfg.physical k [] .x true).1
  rw [Motion.begin_current, Motion.begin_target] at hlength
  constructor
  · intro k hpos hk
    obtain ⟨j, rfl⟩ := Nat.exists_eq_add_of_le' hpos
    have hsplit : moveLength s.motion.current w - 1 = j + (moveLength s.motion.current w - 1 - j) := by omega
    rw [hsplit, List.replicate_add, List.append_assoc] at hsched
    obtain ⟨mq, -, hrun⟩ := runSteps_move h hctl hidle hc (by omega) hsched
    have hshort : (Motion.tick^[j + 1] (s.motion.begin w)).current ≠ w := by
      rw [Ne, ← moveLength_eq_zero_iff, hlength]
      omega
    refine ⟨_, hrun, ?_, hshort⟩
    by_contra hover
    exact hshort (((h.runSteps hrun).idle (by simpa using hover)).trans (htarget _))
  · obtain ⟨mq, hrest, hrun⟩ := runSteps_move h hctl hidle hc le_rfl hsched
    have hthere : (Motion.tick^[moveLength s.motion.current w - 1 + 1] (s.motion.begin w)).current = w := by
      rw [← moveLength_eq_zero_iff, hlength]
      omega
    obtain ⟨hover, hdisarmed⟩ := (h.runSteps hrun).dataInv.motion.over (hthere.trans (htarget _).symm)
    rw [Nat.add_comm 1]
    refine ⟨_, hrun, hthere, htarget _, hover, hdisarmed, hrest, rfl, fun a d => ?_⟩
    obtain ⟨-, -, hpulses⟩ := haimed.ticks s.cfg.physical (moveLength s.motion.current w - 1 + 1) s.emitted a d
    have hle := axisDistance_le_moveLength s.motion.current w a
    have hmin : min (moveLength s.motion.current w - 1 + 1) (axisDistance s.motion.current w a) =
        axisDistance s.motion.current w a := by omega
    rw [Motion.begin_dir, directions_get, Motion.begin_current, Motion.begin_target, hmin] at hpulses
    exact hpulses

end Sys2Proof.Machine
